-- ==== Sys2Proof/Word.lean ====
section
/-! DEFINITION. The word, the character and the register number of the engine (spec 00_scope.md R5, R8; 10_state.md R30). -/

namespace Sys2Proof

/-- A 16-bit word: every register, memory cell, instruction and address (R8). -/
abbrev Word := BitVec 16

/-- An 8-bit console or keyboard character (R36, R40). -/
abbrev Byte := BitVec 8

/-- A register number: a 3-bit field that selects one of R0 to R7 (R30). -/
abbrev RegIdx := BitVec 3

end Sys2Proof
end

