-- ==== Sys2Proof/Config.lean ====
section
/-! DEFINITION. What is fixed for the machine: the parameters of 00_scope.md R6 at the spec's defaults, and the values the
spec leaves open, as constants without a body. -/

namespace Sys2Proof

/-- The condition register's three values (10_state.md R33). -/
inductive Cond where
  | n
  | z
  | p
  deriving DecidableEq, Repr, Inhabited

namespace Config

/-- `RESET_PC` (R6, R273). The spec's decision D12; notes/assumptions/2.md. -/
def resetPc : Word := 0x3000

/-- `GPR_RESET` (R6, R44). The spec's decision D14; notes/assumptions/2.md. -/
def gprReset : Word := 0x0000

/-- `MEM_RESET` (R6, R61): what a cell that nothing has written reads as. The spec's decision D15;
notes/assumptions/2.md. -/
def memReset : Word := 0x0000

/-- `COND_RESET` (R6, R44). The spec's decision D13; notes/assumptions/2.md. -/
def condReset : Cond := .z

/-- `KBSR_ADDR` (R6, R64). The spec's decision D4; notes/assumptions/2.md. -/
def kbsrAddr : Word := 0xFE00

/-- `KBDR_ADDR` (R6, R65). The spec's decision D4; notes/assumptions/2.md. -/
def kbdrAddr : Word := 0xFE02

/-- The trap vectors of 30_encoding.md R109. The spec's decision D3; notes/assumptions/2.md. -/
def vecGetc : Byte := 0x20
def vecOut : Byte := 0x21
def vecPuts : Byte := 0x22
def vecIn : Byte := 0x23
def vecPutsp : Byte := 0x24
def vecHalt : Byte := 0x25

/-- `HALT_NOTICE` (R6, R41): the text of the halt notice, OPEN in the spec. No body: any text. notes/assumptions/11.md. -/
opaque haltNotice : List Byte

/-- `IN_PROMPT` (R6, R205): the prompt of IN, OPEN in the spec. No body: any text. notes/assumptions/11.md. -/
opaque inPrompt : List Byte

/-- Free values: what R0 to R7, `pc`, COND and memory hold after a fault, which the spec does not say (60_exceptions.md
R243). Each is applied to the counter `freeCount` of State. notes/assumptions/8.md. -/
opaque faultedRegs : Nat → Vector Word 8
opaque faultedPc : Nat → Word
opaque faultedCond : Nat → Cond
opaque faultedCells : Nat → List (Word × Word)

end Config

end Sys2Proof
end

