-- ==== Sys2Proof/Syntax.lean ====
section
/-! DEFINITION. The instructions: one constructor for each row of spec/opcode_table.json (30_encoding.md R101, R102, R112). -/

namespace Sys2Proof

/-- An instruction, with the fields of its row (R102) and none of its ignored bits (R107). -/
inductive Instr where
  /-- ADD, register form (R130). -/
  | addR (dr sr1 sr2 : RegIdx)
  /-- ADD, immediate form (R131). -/
  | addI (dr sr1 : RegIdx) (imm5 : BitVec 5)
  /-- AND, register form (R132). -/
  | andR (dr sr1 sr2 : RegIdx)
  /-- AND, immediate form (R133). -/
  | andI (dr sr1 : RegIdx) (imm5 : BitVec 5)
  /-- NOT (R134). -/
  | not (dr sr : RegIdx)
  /-- BR (R150). -/
  | br (n z p : Bool) (off9 : BitVec 9)
  /-- JMP through a register other than R7 (R151). -/
  | jmp (baseR : RegIdx)
  /-- RET, the JMP through R7 (R152). -/
  | ret
  /-- JSR (R153). -/
  | jsr (off11 : BitVec 11)
  /-- JSRR (R154). -/
  | jsrr (baseR : RegIdx)
  /-- LD (R170). -/
  | ld (dr : RegIdx) (off9 : BitVec 9)
  /-- LDI (R171). -/
  | ldi (dr : RegIdx) (off9 : BitVec 9)
  /-- LDR (R172). -/
  | ldr (dr baseR : RegIdx) (off6 : BitVec 6)
  /-- LEA (R173). -/
  | lea (dr : RegIdx) (off9 : BitVec 9)
  /-- ST (R174). -/
  | st (sr : RegIdx) (off9 : BitVec 9)
  /-- STI (R175). -/
  | sti (sr : RegIdx) (off9 : BitVec 9)
  /-- STR (R176). -/
  | str (sr baseR : RegIdx) (off6 : BitVec 6)
  /-- TRAP with a vector that has no row of its own (R200, R208). -/
  | trap (vect8 : Byte)
  /-- GETC, TRAP x20 (R202). -/
  | getc
  /-- OUT, TRAP x21 (R203). -/
  | out
  /-- PUTS, TRAP x22 (R204). -/
  | puts
  /-- IN, TRAP x23 (R205). -/
  | input
  /-- PUTSP, TRAP x24 (R206). -/
  | putsp
  /-- HALT, TRAP x25 (R207). -/
  | halt
  /-- RTI, illegal here (R230). -/
  | rti
  /-- The reserved opcode 0xD (R231). -/
  | reserved
  deriving DecidableEq, Repr

end Sys2Proof
end

