-- ==== Sys2Proof/WellFormed.lean ====
section
/-! DEFINITION. Well-formed instructions: one term for each instruction. A JMP through R7 is `ret` and a TRAP to one of the six
routines is that routine's constructor (30_encoding.md R112); field widths are in the types. -/

namespace Sys2Proof

/-- The vector is one of the six of 30_encoding.md R109. -/
def isDefinedVector (v : Byte) : Bool :=
  v == Config.vecGetc || v == Config.vecOut || v == Config.vecPuts || v == Config.vecIn || v == Config.vecPutsp ||
    v == Config.vecHalt

/-- The instruction is the one term that stands for its words (notes/assumptions/13.md). -/
def Instr.wellFormed : Instr → Bool
  | .jmp baseR => baseR != 7
  | .trap v => !isDefinedVector v
  | .addR _ _ _ | .addI _ _ _ | .andR _ _ _ | .andI _ _ _ | .not _ _ => true
  | .br _ _ _ _ | .ret | .jsr _ | .jsrr _ => true
  | .ld _ _ | .ldi _ _ | .ldr _ _ _ | .lea _ _ | .st _ _ | .sti _ _ | .str _ _ _ => true
  | .getc | .out | .puts | .input | .putsp | .halt => true
  | .rti | .reserved => true

end Sys2Proof
end

