-- ==== Sys2Proof/Decode.lean ====
section
/-! DEFINITION. The decoder, total on every word (30_encoding.md R113), and the encoder, both from the layouts of R102. -/

namespace Sys2Proof

/-- `w[lo+len-1:lo]`: the field of `len` bits from bit `lo` up (00_scope.md R7). -/
abbrev bits (w : Word) (lo len : Nat) : BitVec len := w.extractLsb' lo len

/-- The register field at bits `lo+2..lo` (R102). -/
abbrev regAt (w : Word) (lo : Nat) : RegIdx := bits w lo 3

/-- `decode(w)` for opcode 0xF: the six vectors of R109 by their own rows, every other vector as TRAP (R200). -/
def decodeTrap (v : Byte) : Instr :=
  if v = Config.vecGetc then .getc
  else if v = Config.vecOut then .out
  else if v = Config.vecPuts then .puts
  else if v = Config.vecIn then .input
  else if v = Config.vecPutsp then .putsp
  else if v = Config.vecHalt then .halt
  else .trap v

/-- `decode(w)` for opcode 0xC: through R7 it is RET (R152), else JMP (R151). -/
def decodeJmp (baseR : RegIdx) : Instr :=
  if baseR = 7 then .ret else .jmp baseR

/-- The decoder (R113), by the opcode `w[15:12]` (R101). Ignored bits are not read (R107).
The last arm is opcode 0xF: the fifteen other values of the 4-bit field stand above it. -/
def decode (w : Word) : Instr :=
  match bits w 12 4 with
  | 0x0#4 => .br (w.getLsbD 11) (w.getLsbD 10) (w.getLsbD 9) (bits w 0 9)
  | 0x1#4 => if w.getLsbD 5 then .addI (regAt w 9) (regAt w 6) (bits w 0 5) else .addR (regAt w 9) (regAt w 6) (regAt w 0)
  | 0x2#4 => .ld (regAt w 9) (bits w 0 9)
  | 0x3#4 => .st (regAt w 9) (bits w 0 9)
  | 0x4#4 => if w.getLsbD 11 then .jsr (bits w 0 11) else .jsrr (regAt w 6)
  | 0x5#4 => if w.getLsbD 5 then .andI (regAt w 9) (regAt w 6) (bits w 0 5) else .andR (regAt w 9) (regAt w 6) (regAt w 0)
  | 0x6#4 => .ldr (regAt w 9) (regAt w 6) (bits w 0 6)
  | 0x7#4 => .str (regAt w 9) (regAt w 6) (bits w 0 6)
  | 0x8#4 => .rti
  | 0x9#4 => .not (regAt w 9) (regAt w 6)
  | 0xA#4 => .ldi (regAt w 9) (bits w 0 9)
  | 0xB#4 => .sti (regAt w 9) (bits w 0 9)
  | 0xC#4 => decodeJmp (regAt w 6)
  | 0xD#4 => .reserved
  | 0xE#4 => .lea (regAt w 9) (bits w 0 9)
  | _ => decodeTrap (bits w 0 8)

/-- A word that holds the field `v` from bit `lo` up and zeros elsewhere (R102). -/
def place {n : Nat} (lo : Nat) (v : BitVec n) : Word :=
  v.setWidth 16 <<< lo

/-- The canonical word of a TRAP with vector `v`: bits 11..8 are 0000 (R107). -/
def encodeTrap (v : Byte) : Word :=
  place 12 0xF#4 ||| place 0 v

/-- The canonical word of an instruction: the layouts of R102 with the ignored bits at the values of R107. R107 gives no value for
bits 11..0 of RTI and the reserved opcode: DESIGN CHOICE zeros, notes/assumptions/15.md. -/
def encode : Instr → Word
  | .addR dr sr1 sr2 => place 12 0x1#4 ||| place 9 dr ||| place 6 sr1 ||| place 0 sr2
  | .addI dr sr1 imm5 => place 12 0x1#4 ||| place 9 dr ||| place 6 sr1 ||| place 5 0b1#1 ||| place 0 imm5
  | .andR dr sr1 sr2 => place 12 0x5#4 ||| place 9 dr ||| place 6 sr1 ||| place 0 sr2
  | .andI dr sr1 imm5 => place 12 0x5#4 ||| place 9 dr ||| place 6 sr1 ||| place 5 0b1#1 ||| place 0 imm5
  | .not dr sr => place 12 0x9#4 ||| place 9 dr ||| place 6 sr ||| place 0 0b111111#6
  | .br n z p off9 =>
    place 12 0x0#4 ||| place 11 (BitVec.ofBool n) ||| place 10 (BitVec.ofBool z) ||| place 9 (BitVec.ofBool p) |||
      place 0 off9
  | .jmp baseR => place 12 0xC#4 ||| place 6 baseR
  | .ret => place 12 0xC#4 ||| place 6 0b111#3
  | .jsr off11 => place 12 0x4#4 ||| place 11 0b1#1 ||| place 0 off11
  | .jsrr baseR => place 12 0x4#4 ||| place 6 baseR
  | .ld dr off9 => place 12 0x2#4 ||| place 9 dr ||| place 0 off9
  | .ldi dr off9 => place 12 0xA#4 ||| place 9 dr ||| place 0 off9
  | .ldr dr baseR off6 => place 12 0x6#4 ||| place 9 dr ||| place 6 baseR ||| place 0 off6
  | .lea dr off9 => place 12 0xE#4 ||| place 9 dr ||| place 0 off9
  | .st sr off9 => place 12 0x3#4 ||| place 9 sr ||| place 0 off9
  | .sti sr off9 => place 12 0xB#4 ||| place 9 sr ||| place 0 off9
  | .str sr baseR off6 => place 12 0x7#4 ||| place 9 sr ||| place 6 baseR ||| place 0 off6
  | .trap v => encodeTrap v
  | .getc => encodeTrap Config.vecGetc
  | .out => encodeTrap Config.vecOut
  | .puts => encodeTrap Config.vecPuts
  | .input => encodeTrap Config.vecIn
  | .putsp => encodeTrap Config.vecPutsp
  | .halt => encodeTrap Config.vecHalt
  | .rti => place 12 0x8#4
  | .reserved => place 12 0xD#4

/-- The instruction the decoder reads from a table word; an instruction is one 16-bit word (R100), so a number of more
than 16 bits is no instruction (notes/assumptions/13.md). -/
def decodeTableWord (nbits w : Nat) : Option Instr :=
  if nbits ≤ 16 ∧ w < 2 ^ 16 then some (decode (BitVec.ofNat 16 w)) else none

end Sys2Proof
end

