-- ==== Sys2Proof/Machine/State.lean ====
section
/-! DEFINITION. The architectural state (10_state.md), as plain data, the reasons a step can stop, and the state after reset
(10_state.md R44; 70_reset_and_hazards.md R270). -/

namespace Sys2Proof.Machine

/-- One memory cell that does not hold `MEM_RESET`: its word address and its word (20_memory.md R60, R61). The word is the
smallest addressable unit (R69); notes/assumptions/1.md. -/
abbrev Cell := Nat × Word

/-- The storage array `mem[0..65535]` (R61) as a list of cells in rising address order. -/
abbrev Memory := List Cell

/-- The run state (10_state.md R35). -/
inductive RunState where
  | running
  | halted
  | faulted
  deriving DecidableEq, Repr

/-- Which string routine is running: PUTS (43_trap.md R204) or PUTSP (R206). -/
inductive StringKind where
  | puts
  | putsp
  deriving DecidableEq, Repr

/-- What a suspended instruction still has to do once a character arrives (70_reset_and_hazards.md R275):
one constructor for each `ConsoleGet` of the spec's pseudocode. notes/assumptions/6.md. -/
inductive Rest where
  /-- The instruction fetch, at KBDR (R274). -/
  | fetch
  /-- The data read of LD, LDR or LDI into `dr` (R170 to R172). -/
  | load (dr : RegIdx)
  /-- The pointer read of LDI into `dr` (R171). -/
  | ldiPointer (dr : RegIdx)
  /-- The pointer read of STI from `sr` (R175). -/
  | stiPointer (sr : RegIdx)
  /-- The character of GETC (R202). -/
  | getc
  /-- The character of IN, its prompt already written (R205). -/
  | input
  /-- The word of PUTS or PUTSP at address `a`, the earlier ones already written (R204, R206). -/
  | string (kind : StringKind) (a : Word)
  deriving DecidableEq, Repr

/-- The hold state `wait` (10_state.md R37). -/
inductive Wait where
  /-- NONE: no instruction is in progress. -/
  | none
  /-- WAIT_INPUT: the current instruction waits for a character, and `rest` is what it still has to do. -/
  | input (rest : Rest)
  deriving DecidableEq, Repr

/-- The cause of a fault with the value recorded (60_exceptions.md R240). -/
inductive Cause where
  /-- Code 1: image number `image` failed to load. It comes before the run, so no fault record holds it (R245). -/
  | imageLoadError (image : Nat)
  /-- Code 2: the opcode, 4 bits. -/
  | illegalOpcode (op : BitVec 4)
  /-- Code 3: the trap vector, 8 bits. -/
  | unknownTrapVector (v : Byte)
  deriving DecidableEq, Repr

/-- The fault record (10_state.md R39). -/
structure FaultRecord where
  cause : Cause
  pcFault : Word
  deriving DecidableEq, Repr

/-- One report on the status channel (10_state.md R41). -/
inductive StatusReport where
  /-- The halt notice and its text (43_trap.md R207). -/
  | haltNotice (text : List Byte)
  /-- A fault record (60_exceptions.md R241). -/
  | fault (record : FaultRecord)
  deriving DecidableEq, Repr

/-- The state of one engine instance. The last three fields are the model's own. -/
structure State where
  /-- R0 to R7 (10_state.md R30). -/
  regs : Vector Word 8
  /-- The program counter (R32). -/
  pc : Word
  /-- COND (R33). -/
  cond : Cond
  /-- The storage array (20_memory.md R61). -/
  mem : Memory
  /-- `run` (10_state.md R35). -/
  run : RunState
  /-- `wait` (R37). -/
  wait : Wait
  /-- `fault` (R39). -/
  fault : Option FaultRecord
  /-- `kb_full` (R36). -/
  kbFull : Bool
  /-- `kb_char`, meaningful only while `kbFull` (R36). -/
  kbChar : Byte
  /-- The console output (R40), oldest character first. -/
  out : List Byte
  /-- The status channel (R41), oldest report first. -/
  status : List StatusReport
  /-- The host's deliveries to come (20_memory.md R67), one entry for each opportunity: `some c` offers `c`, `none` offers
  nothing, and past the end it never offers again. notes/assumptions/3.md. -/
  hostInput : List (Option Byte)
  /-- Where a PUTS or PUTSP that has read every address of memory once, and has met no zero word, goes on in the next step
  (43_trap.md R204 "the routine never ends"). DESIGN CHOICE, notes/assumptions/5.md. -/
  stringRest : Option (StringKind × Word)
  /-- Selects the free values of the next faulted state. notes/assumptions/8.md. -/
  freeCount : Nat
  deriving DecidableEq, Repr

/-- Why no machine comes to run. -/
inductive Fault where
  /-- Raised by `boot` alone, never by a step: image number `image` (from 0, in the order given) failed to load, so the run
  does not start (20_memory.md R81, R82; 60_exceptions.md R240). Safe: it is the spec's own outcome. -/
  | imageLoadError (image : Nat)
  deriving DecidableEq, Repr

/-- Why the model gives no meaning. -/
inductive Refusal where
  /-- The dispatcher's answer for an instruction without a meaning, of which there is none. Safe: nothing follows from it. -/
  | notModelled (mnemonic : String)
  deriving DecidableEq, Repr

/-- The state after reset (10_state.md R44; 70_reset_and_hazards.md R270). `kbChar`, `status` and the model's own fields are
not in R44's table or have no value there: notes/assumptions/3.md, 5.md, 8.md, 9.md, 10.md, 12.md. -/
def State.reset : State where
  regs := Vector.replicate 8 Config.gprReset
  pc := Config.resetPc
  cond := Config.condReset
  mem := []
  run := .running
  wait := .none
  fault := none
  kbFull := false
  kbChar := 0
  out := []
  status := []
  hostInput := []
  stringRest := none
  freeCount := 0

end Sys2Proof.Machine
end

