-- ==== Sys2Proof/Machine/Flags.lean ====
section
/-! DEFINITION. The condition register: its one computation (10_state.md R33) and its one reader (30_encoding.md R106). -/

namespace Sys2Proof.Machine

/-- The value `setcc(v)` gives COND (R33). -/
def condOf (v : Word) : Cond :=
  if v = 0 then .z else if v.msb then .n else .p

/-- `setcc(v)` (R33): an assignment of COND. -/
def State.setcc (v : Word) (s : State) : State :=
  { s with cond := condOf v }

/-- COND as a 3-bit one-hot value in the order of the BR condition field (10_state.md R34). -/
def condBits : Cond → BitVec 3
  | .n => 0b100
  | .z => 0b010
  | .p => 0b001

/-- The BR test `instr[11:9] & COND_bits != 0` (R106). -/
def branchTaken (n z p : Bool) (c : Cond) : Bool :=
  (BitVec.ofBool n ++ BitVec.ofBool z ++ BitVec.ofBool p) &&& condBits c != 0

end Sys2Proof.Machine
end

