-- ==== Sys2Proof/Machine/Memory.lean ====
section
/-! DEFINITION. The storage array behind the memory port (20_memory.md R61): reading and writing one word, and the canonical
form. The memory port itself, with the keyboard registers, is in Ops.lean. -/

namespace Sys2Proof.Machine

/-- The canonical form: rising addresses below 2^16, and no cell that holds what an unlisted address reads as. -/
abbrev Memory.wf (m : Memory) : Prop :=
  m.Pairwise (fun c d => c.1 < d.1) ∧ ∀ c ∈ m, c.1 < 2 ^ 16 ∧ c.2 ≠ Config.memReset

/-- The word at address number `n`: `MEM_RESET` where nothing is listed (R61). -/
def Memory.readAt : Memory → Nat → Word
  | [], _ => Config.memReset
  | (k, v) :: m, n => if k = n then v else Memory.readAt m n

/-- A cell listed only where it differs from `MEM_RESET`. -/
def Memory.consCell (n : Nat) (v : Word) (m : Memory) : Memory :=
  if v = Config.memReset then m else (n, v) :: m

/-- The word at address number `n` becomes `v`. -/
def Memory.writeAt : Memory → Nat → Word → Memory
  | [], n, v => Memory.consCell n v []
  | (k, x) :: m, n, v =>
    if n < k then Memory.consCell n v ((k, x) :: m)
    else if n = k then Memory.consCell n v m
    else (k, x) :: Memory.writeAt m n v

/-- `mem[a]` (R61). -/
def Memory.read (m : Memory) (a : Word) : Word :=
  Memory.readAt m a.toNat

/-- `mem[a] <- v` (R61, R63). -/
def Memory.write (m : Memory) (a v : Word) : Memory :=
  Memory.writeAt m a.toNat v

/-- The canonical memory with these words written in order over memory that reads `MEM_RESET` everywhere. -/
def Memory.ofCells (cells : List (Word × Word)) : Memory :=
  cells.foldl (fun m c => Memory.write m c.1 c.2) []

end Sys2Proof.Machine
end

