-- ==== Sys2Proof/Machine/Operands.lean ====
section
/-! DEFINITION. Operand forms: extensions (00_scope.md R9) and effective addresses (42_load_store.md R177). -/

namespace Sys2Proof.Machine

/-- `sext_N(v)` to 16 bits (R9). -/
def sext {n : Nat} (v : BitVec n) : Word :=
  v.signExtend 16

/-- `zext_16(v)` (R9). -/
def zext {n : Nat} (v : BitVec n) : Word :=
  v.setWidth 16

/-- The character in bits 7..0 of a word (20_memory.md R69). -/
def lowByte (w : Word) : Byte :=
  w.extractLsb' 0 8

/-- The character in bits 15..8 of a word (R69). -/
def highByte (w : Word) : Byte :=
  w.extractLsb' 8 8

/-- `x[r]`, general register `r` (10_state.md R30). -/
def State.reg (s : State) (r : RegIdx) : Word :=
  s.regs[r.toNat]

/-- PC-relative: `(pc + sext_N(offset)) mod 2^16`, `pc` the incremented PC (R177, 10_state.md R32). -/
def pcRelative {n : Nat} (off : BitVec n) (s : State) : Word :=
  s.pc + sext off

/-- Base plus offset: `(x[BaseR] + sext_6(offset6)) mod 2^16` (R177). -/
def basePlusOffset (baseR : RegIdx) (off6 : BitVec 6) (s : State) : Word :=
  s.reg baseR + sext off6

end Sys2Proof.Machine
end

