-- ==== Sys2Proof/Machine/Ops.lean ====
section
/-! DEFINITION. The named operations over registers, memory port, keyboard, console and faults that every meaning is written
from (the pseudocode primitives of 00_scope.md R10). -/

namespace Sys2Proof.Machine

/-! Registers -/

/-- `x[r] <- v` (10_state.md R30): no register is hardwired. -/
def State.setReg (r : RegIdx) (v : Word) (s : State) : State :=
  { s with regs := s.regs.set r.toNat v }

/-- `pc <- target` (R10). -/
def State.setPc (target : Word) (s : State) : State :=
  { s with pc := target }

/-- `x[DR] <- v; setcc(v)`, the end of every flag-setting instruction (10_state.md R34). -/
def writeResult (dr : RegIdx) (v : Word) (s : State) : State :=
  (s.setReg dr v).setcc v

/-! Keyboard latch and memory port -/

/-- One opportunity of the host to fill the keyboard latch (20_memory.md R67). While the latch is full the host cannot
deliver, and an offered character stays first in line. notes/assumptions/3.md. -/
def hostTurn (s : State) : State :=
  match s.hostInput with
  | [] => s
  | none :: later => { s with hostInput := later }
  | some c :: later => if s.kbFull then s else { s with kbFull := true, kbChar := c, hostInput := later }

/-- `kb_full <- 0; wait <- NONE`, the end of `ConsoleGet()` (20_memory.md R66). -/
def State.takeChar (s : State) : State :=
  { s with kbFull := false, wait := .none }

/-- `ConsoleGet()` (R66): the pending character and the state after it is taken, or `none` where the latch is empty and
the caller must hold. -/
def consoleGet (s : State) : Option (Byte × State) :=
  if s.kbFull then some (s.kbChar, s.takeChar) else none

/-- `KbsrValue()` (R64). -/
def kbsrValue (s : State) : Word :=
  if s.kbFull then 0x8000 else 0x0000

/-- `MemRead(a)` (R62): the word and the state after the read, or `none` where the read must hold (R65). -/
def memRead (a : Word) (s : State) : Option (Word × State) :=
  if a = Config.kbsrAddr then some (kbsrValue s, s)
  else if a = Config.kbdrAddr then (consoleGet s).map fun r => (zext r.1, r.2)
  else some (s.mem.read a, s)

/-- `MemWrite(a, v)` (R63): it stores to the cell, the backing cell at KBSR and KBDR, and does nothing else. -/
def memWrite (a v : Word) (s : State) : State :=
  { s with mem := s.mem.write a v }

/-! Holds -/

/-- The current instruction is suspended with `rest` still to do (70_reset_and_hazards.md R275). -/
def State.hold (rest : Rest) (s : State) : State :=
  { s with wait := .input rest }

/-- `wait <- NONE`: the instruction in progress goes on (R275). -/
def State.proceed (s : State) : State :=
  { s with wait := .none }

/-- A string routine goes on with `rest` in the next step, or with nothing. notes/assumptions/5.md. -/
def State.setStringRest (rest : Option (StringKind × Word)) (s : State) : State :=
  { s with stringRest := rest }

/-- A `MemRead` and what follows it; it holds with `rest` where the read must wait (R275). -/
def readThen (a : Word) (rest : Rest) (k : Word → State → State) (s : State) : State :=
  match memRead a s with
  | some (v, s') => k v s'
  | none => s.hold rest

/-- A `ConsoleGet` and what follows it; it holds with `rest` where the latch is empty (R275). -/
def getThen (rest : Rest) (k : Byte → State → State) (s : State) : State :=
  match consoleGet s with
  | some (c, s') => k c s'
  | none => s.hold rest

/-! Outputs -/

/-- `ConsoleOut` of each character in turn (10_state.md R40): it appends, never blocks and never fails. -/
def consoleOut (cs : List Byte) (s : State) : State :=
  { s with out := s.out ++ cs }

/-- A report on the status channel (10_state.md R41). -/
def reportStatus (r : StatusReport) (s : State) : State :=
  { s with status := s.status ++ [r] }

/-- `HaltNotice(); halt` (10_state.md R38, R41; 43_trap.md R207). -/
def haltRun (s : State) : State :=
  { reportStatus (.haltNotice Config.haltNotice) s with run := .halted }

/-! Traps and faults -/

/-- Trap entry (60_exceptions.md R246): the incremented PC is saved into R7 and nothing else is saved or changed. A routine
returns by itself to the incremented PC already in `pc` (R247), so there is no return operation beside it. -/
def trapEntry (s : State) : State :=
  s.setReg 7 s.pc

/-- The numeric code of a cause (60_exceptions.md R240). -/
def Cause.code : Cause → Nat
  | .imageLoadError _ => 1
  | .illegalOpcode _ => 2
  | .unknownTrapVector _ => 3

/-- `pc_fault`, the address of the faulting instruction: `(pc - 1) mod 2^16` of the incremented PC (R242). -/
def pcFault (s : State) : Word :=
  s.pc - 1

/-- What the spec does not say of a faulted state (R243): R0 to R7, `pc`, COND and memory take free values.
notes/assumptions/8.md. -/
def forgetState (s : State) : State :=
  { s with
    regs := Config.faultedRegs s.freeCount
    pc := Config.faultedPc s.freeCount
    cond := Config.faultedCond s.freeCount
    mem := Memory.ofCells (Config.faultedCells s.freeCount)
    freeCount := s.freeCount + 1 }

/-- `raise F(v)` (R241): the fault record is written, `run` becomes FAULTED and the record is reported on the status
channel. There is no handler and no return. -/
def raise (cause : Cause) (s : State) : State :=
  let record : FaultRecord := { cause := cause, pcFault := pcFault s }
  { reportStatus (.fault record) (forgetState s) with fault := some record, run := .faulted }

end Sys2Proof.Machine
end

