-- ==== Sys2Proof/Machine/Control.lean ====
section
/-! DEFINITION. Control transfer (41_control.md): BR, JMP, RET, JSR, JSRR. -/

namespace Sys2Proof.Machine

/-- BR (R150): an untaken branch leaves the incremented PC. -/
def execBr (n z p : Bool) (off9 : BitVec 9) (s : State) : Host.Outcome State Fault Refusal :=
  .next (if branchTaken n z p s.cond then s.setPc (pcRelative off9 s) else s)

/-- JMP (R151). -/
def execJmp (baseR : RegIdx) (s : State) : Host.Outcome State Fault Refusal :=
  .next (s.setPc (s.reg baseR))

/-- RET (R152). -/
def execRet (s : State) : Host.Outcome State Fault Refusal :=
  .next (s.setPc (s.reg 7))

/-- JSR (R153). -/
def execJsr (off11 : BitVec 11) (s : State) : Host.Outcome State Fault Refusal :=
  .next ((s.setReg 7 s.pc).setPc (pcRelative off11 s))

/-- JSRR (R154): R7 is written first, so JSRR R7 reads the new R7 (the spec's decision D17). -/
def execJsrr (baseR : RegIdx) (s : State) : Host.Outcome State Fault Refusal :=
  let linked := s.setReg 7 s.pc
  .next (linked.setPc (linked.reg baseR))

end Sys2Proof.Machine
end

