-- ==== Sys2Proof/Machine/Illegal.lean ====
section
/-! DEFINITION. The two illegal opcodes (44_illegal.md): both raise IllegalOpcode, whose effect 60_exceptions.md R241 gives. -/

namespace Sys2Proof.Machine

/-- RTI, opcode 0x8 (R230). -/
def execRti (s : State) : Host.Outcome State Fault Refusal :=
  .next (raise (.illegalOpcode 0x8) s)

/-- The reserved opcode 0xD (R231). -/
def execReserved (s : State) : Host.Outcome State Fault Refusal :=
  .next (raise (.illegalOpcode 0xD) s)

end Sys2Proof.Machine
end

