-- ==== Sys2Proof/Machine/LoadStore.lean ====
section
/-! DEFINITION. Loads and stores (42_load_store.md): LD, LDI, LDR, LEA, ST, STI, STR. -/

namespace Sys2Proof.Machine

/-- `v <- MemRead(a); x[DR] <- v; setcc(v)`, which may hold at KBDR (R170 to R172). -/
def loadFrom (a : Word) (dr : RegIdx) (s : State) : State :=
  readThen a (.load dr) (writeResult dr) s

/-- LDI from its pointer cell on: `p <- MemRead(a)`, then the load from `p` (R171). -/
def loadThrough (a : Word) (dr : RegIdx) (s : State) : State :=
  readThen a (.ldiPointer dr) (fun p s' => loadFrom p dr s') s

/-- STI from its pointer cell on: `p <- MemRead(a); MemWrite(p, x[SR])` (R175). -/
def storeThrough (a : Word) (sr : RegIdx) (s : State) : State :=
  readThen a (.stiPointer sr) (fun p s' => memWrite p (s'.reg sr) s') s

/-- LD (R170). -/
def execLd (dr : RegIdx) (off9 : BitVec 9) (s : State) : Host.Outcome State Fault Refusal :=
  .next (loadFrom (pcRelative off9 s) dr s)

/-- LDI (R171). -/
def execLdi (dr : RegIdx) (off9 : BitVec 9) (s : State) : Host.Outcome State Fault Refusal :=
  .next (loadThrough (pcRelative off9 s) dr s)

/-- LDR (R172). -/
def execLdr (dr baseR : RegIdx) (off6 : BitVec 6) (s : State) : Host.Outcome State Fault Refusal :=
  .next (loadFrom (basePlusOffset baseR off6 s) dr s)

/-- LEA (R173): no memory access; COND from the address. -/
def execLea (dr : RegIdx) (off9 : BitVec 9) (s : State) : Host.Outcome State Fault Refusal :=
  .next (writeResult dr (pcRelative off9 s) s)

/-- ST (R174). -/
def execSt (sr : RegIdx) (off9 : BitVec 9) (s : State) : Host.Outcome State Fault Refusal :=
  .next (memWrite (pcRelative off9 s) (s.reg sr) s)

/-- STI (R175). -/
def execSti (sr : RegIdx) (off9 : BitVec 9) (s : State) : Host.Outcome State Fault Refusal :=
  .next (storeThrough (pcRelative off9 s) sr s)

/-- STR (R176). -/
def execStr (sr baseR : RegIdx) (off6 : BitVec 6) (s : State) : Host.Outcome State Fault Refusal :=
  .next (memWrite (basePlusOffset baseR off6 s) (s.reg sr) s)

end Sys2Proof.Machine
end

