-- ==== Sys2Proof/Machine/Operate.lean ====
section
/-! DEFINITION. Operate instructions (40_operate.md): ADD, AND, NOT. -/

namespace Sys2Proof.Machine

/-- ADD, register form (R130). -/
def execAddR (dr sr1 sr2 : RegIdx) (s : State) : Host.Outcome State Fault Refusal :=
  .next (writeResult dr (s.reg sr1 + s.reg sr2) s)

/-- ADD, immediate form (R131). -/
def execAddI (dr sr1 : RegIdx) (imm5 : BitVec 5) (s : State) : Host.Outcome State Fault Refusal :=
  .next (writeResult dr (s.reg sr1 + sext imm5) s)

/-- AND, register form (R132). -/
def execAndR (dr sr1 sr2 : RegIdx) (s : State) : Host.Outcome State Fault Refusal :=
  .next (writeResult dr (s.reg sr1 &&& s.reg sr2) s)

/-- AND, immediate form (R133; the immediate is sign-extended, 90_conflicts.md C2). -/
def execAndI (dr sr1 : RegIdx) (imm5 : BitVec 5) (s : State) : Host.Outcome State Fault Refusal :=
  .next (writeResult dr (s.reg sr1 &&& sext imm5) s)

/-- NOT (R134). -/
def execNot (dr sr : RegIdx) (s : State) : Host.Outcome State Fault Refusal :=
  .next (writeResult dr (~~~(s.reg sr)) s)

end Sys2Proof.Machine
end

