-- ==== Sys2Proof/Machine/Trap.lean ====
section
/-! DEFINITION. TRAP and its six routines (43_trap.md), and the unknown vectors (R208). -/

namespace Sys2Proof.Machine

/-! The routines, without the trap entry -/

/-- `c <- ConsoleGet(); x[0] <- zext_16(c)` (R202). -/
def routineGetc (s : State) : State :=
  getThen .getc (fun c s' => s'.setReg 0 (zext c)) s

/-- `ConsoleOut(x[0][7:0])` (R203). -/
def routineOut (s : State) : State :=
  consoleOut [lowByte (s.reg 0)] s

/-- IN after its prompt: `c <- ConsoleGet(); ConsoleOut(c); x[0] <- zext_16(c)` (R205). -/
def routineInAfterPrompt (s : State) : State :=
  getThen .input (fun c s' => (consoleOut [c] s').setReg 0 (zext c)) s

/-- IN: the prompt is written before the wait (R205). -/
def routineIn (s : State) : State :=
  routineInAfterPrompt (consoleOut Config.inPrompt s)

/-- The characters one non-zero word of a string gives: PUTS its bits 7..0 (R204), PUTSP those and then bits 15..8 where
they are not zero (R206). -/
def stringChars : StringKind → Word → List Byte
  | .puts, w => [lowByte w]
  | .putsp, w => if highByte w = 0 then [lowByte w] else [lowByte w, highByte w]

/-- How many words a string routine reads in one step before it is left running: every address once.
notes/assumptions/5.md. -/
def stringPass : Nat := 65536

/-- The host may deliver while a string routine runs, which only a KBSR read in the string can tell.
notes/assumptions/4.md. -/
def stringHostTurn (a : Word) (s : State) : State :=
  if a = Config.kbsrAddr then hostTurn s else s

/-- The loop of PUTS and PUTSP from address `a` (R204, R206), for at most `fuel` words in this step. -/
def stringLoop (kind : StringKind) : Nat → Word → State → State
  | 0, a, s => s.setStringRest (some (kind, a))
  | fuel + 1, a, s =>
    match memRead a (stringHostTurn a s) with
    | none => (stringHostTurn a s).hold (.string kind a)
    | some (w, s') => if w = 0 then s' else stringLoop kind fuel (a + 1) (consoleOut (stringChars kind w) s')

/-- PUTS or PUTSP from address `a` on (R204, R206). -/
def routineString (kind : StringKind) (a : Word) (s : State) : State :=
  stringLoop kind stringPass a s

/-- PUTS from the address in R0 (R204). -/
def routinePuts (s : State) : State :=
  routineString .puts (s.reg 0) s

/-- PUTSP from the address in R0 (R206). -/
def routinePutsp (s : State) : State :=
  routineString .putsp (s.reg 0) s

/-- `Routine(v)` or the fault of an unknown vector (R200, R208). -/
def dispatchTrap (v : Byte) (s : State) : State :=
  if v = Config.vecGetc then routineGetc s
  else if v = Config.vecOut then routineOut s
  else if v = Config.vecPuts then routinePuts s
  else if v = Config.vecIn then routineIn s
  else if v = Config.vecPutsp then routinePutsp s
  else if v = Config.vecHalt then haltRun s
  else raise (.unknownTrapVector v) s

/-! The instructions -/

/-- TRAP (R200). -/
def execTrap (v : Byte) (s : State) : Host.Outcome State Fault Refusal :=
  .next (dispatchTrap v (trapEntry s))

/-- GETC (R202). -/
def execGetc (s : State) : Host.Outcome State Fault Refusal :=
  .next (routineGetc (trapEntry s))

/-- OUT (R203). -/
def execOut (s : State) : Host.Outcome State Fault Refusal :=
  .next (routineOut (trapEntry s))

/-- PUTS (R204). -/
def execPuts (s : State) : Host.Outcome State Fault Refusal :=
  .next (routinePuts (trapEntry s))

/-- IN (R205). -/
def execIn (s : State) : Host.Outcome State Fault Refusal :=
  .next (routineIn (trapEntry s))

/-- PUTSP (R206). -/
def execPutsp (s : State) : Host.Outcome State Fault Refusal :=
  .next (routinePutsp (trapEntry s))

/-- HALT (R207). -/
def execHalt (s : State) : Host.Outcome State Fault Refusal :=
  .next (haltRun (trapEntry s))

end Sys2Proof.Machine
end

