-- ==== Sys2Proof/Machine/Cycle.lean ====
section
/-! DEFINITION. The instruction cycle (70_reset_and_hazards.md R274), the resumption of a held instruction (R275), and the placing
of one instruction where the next fetch reads it. -/

namespace Sys2Proof.Machine

/-- `instr <- MemRead(pc); pc <- (pc + 1) mod 2^16` (R274): the word and the state after, or `none` where the fetch must
hold, which it does at KBDR with no character pending. -/
def fetch (s : State) : Option (Word × State) :=
  (memRead s.pc s).map fun r => (r.1, r.2.setPc (r.2.pc + 1))

/-- One whole instruction: fetch, decode, execute (R274). -/
def runInstr (s : State) : Host.Outcome State Fault Refusal :=
  match fetch s with
  | some (w, s') => exec (decode w) s'
  | none => .next (s.hold .fetch)

/-- The remaining actions of a held instruction (R275). Each begins with the `ConsoleGet` that held, a KBDR read for every
`rest` but GETC's and IN's. -/
def resume (rest : Rest) (s : State) : Host.Outcome State Fault Refusal :=
  match rest with
  | .fetch => runInstr s
  | .load dr => .next (loadFrom Config.kbdrAddr dr s)
  | .ldiPointer dr => .next (loadThrough Config.kbdrAddr dr s)
  | .stiPointer sr => .next (storeThrough Config.kbdrAddr sr s)
  | .getc => .next (routineGetc s)
  | .input => .next (routineInAfterPrompt s)
  | .string kind a => .next (routineString kind a s)

/-- What the engine does in one step while RUNNING and not waiting: an instruction where none is in progress (R274), or more
words of a string routine (notes/assumptions/5.md). -/
def proceedOrRun (s : State) : Host.Outcome State Fault Refusal :=
  match s.stringRest with
  | none => runInstr s
  | some (kind, a) => .next (routineString kind a (s.setStringRest none))

/-- What the engine does in one step while RUNNING, once the host has had its turn: the rest of a held instruction once the
latch is full (R275), nothing while it waits (R37), and otherwise the next instruction. -/
def advance (s : State) : Host.Outcome State Fault Refusal :=
  match s.wait with
  | .none => proceedOrRun s
  | .input rest => if s.kbFull then resume rest s.proceed else .next s

/-- One step: only RUNNING executes (10_state.md R35), and the host may deliver first (20_memory.md R67). In HALTED and
FAULTED, both terminal, the state stays as it is. notes/assumptions/3.md, 7.md. -/
def cycle (s : State) : Host.Outcome State Fault Refusal :=
  match s.run with
  | .running => advance (hostTurn s)
  | .halted => .next s
  | .faulted => .next s

/-- Where the next instruction is fetched from plain storage: `pc`, or `RESET_PC` where `pc` names a keyboard register, whose
reads come from the device (20_memory.md R62). -/
def fetchSlot (s : State) : Word :=
  if s.pc = Config.kbsrAddr ∨ s.pc = Config.kbdrAddr then Config.resetPc else s.pc

/-- The state with word `w` where the next step fetches, ready to run it. notes/assumptions/12.md. -/
def placeFetchWord (w : Word) (s : State) : State :=
  { s with pc := fetchSlot s, mem := s.mem.write (fetchSlot s) w, run := .running, wait := .none, stringRest := none }

end Sys2Proof.Machine
end

