-- ==== Sys2Proof/Machine/Step.lean ====
section
/-! DEFINITION. The step of the machine, and one instruction placed for it. -/

namespace Sys2Proof.Machine

/-- One step of the engine (70_reset_and_hazards.md R274). -/
def step (s : State) : Host.Outcome State Fault Refusal :=
  cycle s

/-- The state whose next step fetches and runs the instruction whose bits are `w`; every instruction is one 16-bit word
(30_encoding.md R100), so `nbits` adds nothing. notes/assumptions/12.md. -/
def State.withFetchWord (s : State) (nbits w : Nat) : State :=
  placeFetchWord (BitVec.ofNat 16 (w % 2 ^ nbits)) s

end Sys2Proof.Machine
end

