-- ==== Sys2Proof/Machine/Loader.lean ====
section
/-! DEFINITION. Program images and boot (20_memory.md R79 to R82; 70_reset_and_hazards.md R271). -/

namespace Sys2Proof.Machine

/-- An image as the host supplies it: its bytes, or `none` where the stream cannot be read (R81). -/
abbrev ImageStream := Option (List Byte)

/-- Consecutive words from the bytes of an image, the first byte of each pair in bits 15..8 (R79); a trailing single byte is
ignored (R80). -/
def wordsOfBytes : List Byte → List Word
  | hi :: lo :: rest => (hi ++ lo) :: wordsOfBytes rest
  | [_] => []
  | [] => []

/-- `mem[n] <- w` for each word in turn from address number `n` up; words beyond 0xFFFF are discarded (R80). The writes go
to storage directly, with no device effect. -/
def placeWords : Nat → List Word → Memory → Memory
  | _, [], m => m
  | n, w :: ws, m => if n < 2 ^ 16 then placeWords (n + 1) ws (m.writeAt n w) else m

/-- `load(byte_stream)`: the memory after it, or `none` where the stream cannot be read or its header is truncated
(R79 to R81). -/
def loadImage (image : ImageStream) (m : Memory) : Option Memory :=
  match image with
  | some (hi :: lo :: rest) => some (placeWords (hi ++ lo).toNat (wordsOfBytes rest) m)
  | some [_] => none
  | some [] => none
  | none => none

/-- Images loaded in order, each over what the earlier ones left (R82); the first that fails, numbered from `k`, ends it. -/
def loadImages : Nat → List ImageStream → Memory → Except Nat Memory
  | _, [], m => .ok m
  | k, image :: images, m =>
    match loadImage image m with
    | some m' => loadImages (k + 1) images m'
    | none => .error k

/-- The boot sequence (R271): reset, load the images in order, and either report the failing image or start RUNNING at
`RESET_PC`. `input` is the host's deliveries to come (R67). notes/assumptions/12.md. -/
def boot (images : List ImageStream) (input : List (Option Byte)) : Host.Outcome State Fault Refusal :=
  match loadImages 0 images State.reset.mem with
  | .ok m => .next { State.reset with mem := m, run := .running, hostInput := input }
  | .error k => .fault (.imageLoadError k)

end Sys2Proof.Machine
end

