-- ==== Sys2Proof/Safety.lean ====
section
/-! DEFINITION. What statements about the machine are said in: the invariant of a sound state, the classes of instructions the
spec's prose speaks of, the reading of an address as the rules give it, and what stays the same. -/

namespace Sys2Proof.Machine

/-! The invariant -/

/-- A cause that an instruction raises, as against the loader's (60_exceptions.md R240, R245). -/
def Cause.fromExecution : Cause → Bool
  | .imageLoadError _ => false
  | .illegalOpcode _ => true
  | .unknownTrapVector _ => true

/-- What the status channel holds, for each run state: how the run ended, once (10_state.md R41). -/
def statusOf : RunState → Option FaultRecord → List StatusReport
  | .running, _ => []
  | .halted, _ => [.haltNotice Config.haltNotice]
  | .faulted, some r => [.fault r]
  | .faulted, none => []

/-- The states a run can be in. -/
structure State.Inv (s : State) : Prop where
  /-- Memory has its canonical form (notes/assumptions/1.md). -/
  memory : Memory.wf s.mem
  /-- There is a fault record exactly in FAULTED (10_state.md R35, R39). -/
  faultRecord : s.run = .faulted ↔ s.fault ≠ none
  /-- A fault record names an execution fault (60_exceptions.md R245). -/
  faultCause : ∀ r, s.fault = some r → r.cause.fromExecution = true
  /-- An ended run has no instruction in progress (60_exceptions.md R241, R255). -/
  endedIdle : s.run ≠ .running → s.wait = .none ∧ s.stringRest = none
  /-- At most one instruction is in progress: while one waits for input no string routine is left to go on (10_state.md R37). -/
  oneInProgress : s.wait ≠ .none → s.stringRest = none
  /-- Between steps an instruction waits for input only while the latch is empty (10_state.md R37). -/
  waitsEmpty : ∀ rest, s.wait = .input rest → s.kbFull = false
  /-- The status channel tells how the run ended (10_state.md R41). -/
  statusReports : s.status = statusOf s.run s.fault

/-! Classes of instructions -/

/-- The instructions that set COND (10_state.md R34). -/
def setsCond : Instr → Bool
  | .addR _ _ _ | .addI _ _ _ | .andR _ _ _ | .andI _ _ _ | .not _ _ => true
  | .ld _ _ | .ldi _ _ | .ldr _ _ _ | .lea _ _ => true
  | .br _ _ _ _ | .jmp _ | .ret | .jsr _ | .jsrr _ | .st _ _ | .sti _ _ | .str _ _ _ => false
  | .trap _ | .getc | .out | .puts | .input | .putsp | .halt | .rti | .reserved => false

/-- The instructions that store to memory (10_state.md R31). -/
def storesToMemory : Instr → Bool
  | .st _ _ | .sti _ _ | .str _ _ _ => true
  | .addR _ _ _ | .addI _ _ _ | .andR _ _ _ | .andI _ _ _ | .not _ _ => false
  | .br _ _ _ _ | .jmp _ | .ret | .jsr _ | .jsrr _ | .ld _ _ | .ldi _ _ | .ldr _ _ _ | .lea _ _ => false
  | .trap _ | .getc | .out | .puts | .input | .putsp | .halt | .rti | .reserved => false

/-- The instructions that raise a fault (60_exceptions.md R244). -/
def raisesFault : Instr → Bool
  | .rti | .reserved => true
  | .trap v => !isDefinedVector v
  | .addR _ _ _ | .addI _ _ _ | .andR _ _ _ | .andI _ _ _ | .not _ _ => false
  | .br _ _ _ _ | .jmp _ | .ret | .jsr _ | .jsrr _ => false
  | .ld _ _ | .ldi _ _ | .ldr _ _ _ | .lea _ _ | .st _ _ | .sti _ _ | .str _ _ _ => false
  | .getc | .out | .puts | .input | .putsp | .halt => false

/-- The instruction is HALT, under its own name or as a TRAP (43_trap.md R207). -/
def isHalt : Instr → Bool
  | .halt => true
  | .trap v => v == Config.vecHalt
  | .addR _ _ _ | .addI _ _ _ | .andR _ _ _ | .andI _ _ _ | .not _ _ => false
  | .br _ _ _ _ | .jmp _ | .ret | .jsr _ | .jsrr _ => false
  | .ld _ _ | .ldi _ _ | .ldr _ _ _ | .lea _ _ | .st _ _ | .sti _ _ | .str _ _ _ => false
  | .getc | .out | .puts | .input | .putsp | .rti | .reserved => false

/-- The instruction is PUTS or PUTSP, under its own name or as a TRAP (43_trap.md R204, R206). -/
def runsString : Instr → Bool
  | .puts | .putsp => true
  | .trap v => v == Config.vecPuts || v == Config.vecPutsp
  | .addR _ _ _ | .addI _ _ _ | .andR _ _ _ | .andI _ _ _ | .not _ _ => false
  | .br _ _ _ _ | .jmp _ | .ret | .jsr _ | .jsrr _ => false
  | .ld _ _ | .ldi _ _ | .ldr _ _ _ | .lea _ _ | .st _ _ | .sti _ _ | .str _ _ _ => false
  | .getc | .out | .input | .halt | .rti | .reserved => false

/-- The general registers an instruction may write (10_state.md R31). -/
def writtenRegs : Instr → List RegIdx
  | .addR dr _ _ | .addI dr _ _ | .andR dr _ _ | .andI dr _ _ | .not dr _ => [dr]
  | .ld dr _ | .ldi dr _ | .ldr dr _ _ | .lea dr _ => [dr]
  | .br _ _ _ _ | .jmp _ | .ret | .st _ _ | .sti _ _ | .str _ _ _ => []
  | .jsr _ | .jsrr _ | .out | .puts | .putsp | .halt => [7]
  | .getc | .input | .trap _ => [0, 7]
  | .rti | .reserved => []

/-! Reading an address, as 20_memory.md R62, R64 and R65 give it -/

/-- A read of `a` completes at once: every address but KBDR, and KBDR while a character is pending. -/
abbrev readable (a : Word) (s : State) : Prop :=
  a = Config.kbdrAddr → s.kbFull = true

/-- The word a read of `a` returns. -/
def wordAt (a : Word) (s : State) : Word :=
  if a = Config.kbsrAddr then (if s.kbFull then 0x8000 else 0x0000)
  else if a = Config.kbdrAddr then zext s.kbChar
  else s.mem.read a

/-- `a` is plain storage (R61). -/
abbrev plainAddr (a : Word) : Prop :=
  a ≠ Config.kbsrAddr ∧ a ≠ Config.kbdrAddr

/-- COND as the rule words it, from the number a word stands for (10_state.md R33): zero, top bit 1, or otherwise. -/
def condByValue (v : Word) : Cond :=
  if v.toNat = 0 then .z else if 2 ^ 15 ≤ v.toNat then .n else .p

/-! What stays the same -/

/-- Every general register outside `written` is unchanged. -/
def sameRegsBut (written : List RegIdx) (s t : State) : Prop :=
  ∀ r, r ∉ written → t.reg r = s.reg r

/-- Every word of memory reads as before. -/
def sameMemory (s t : State) : Prop :=
  ∀ a, t.mem.read a = s.mem.read a

/-- Every word of memory but the one at `a` reads as before. -/
def sameMemoryBut (a : Word) (s t : State) : Prop :=
  ∀ b, b ≠ a → t.mem.read b = s.mem.read b

/-- The run state, the fault record and the status channel are unchanged, and no string routine is newly left to go on: the
run goes on as it was. -/
def sameRun (s t : State) : Prop :=
  t.run = s.run ∧ t.fault = s.fault ∧ t.status = s.status ∧ t.stringRest = s.stringRest

/-- The keyboard latch, the hold state and the host's deliveries to come are unchanged. -/
def sameInput (s t : State) : Prop :=
  t.kbFull = s.kbFull ∧ t.kbChar = s.kbChar ∧ t.wait = s.wait ∧ t.hostInput = s.hostInput

/-- As `sameInput`, but with the latch emptied and `wait` NONE where the character was `taken` (20_memory.md R66). -/
def inputAfter (taken : Bool) (s t : State) : Prop :=
  t.kbFull = (if taken then false else s.kbFull) ∧ t.wait = (if taken then Wait.none else s.wait) ∧
    t.kbChar = s.kbChar ∧ t.hostInput = s.hostInput

/-- The instruction waits for a character with `rest` still to do, the latch and the host as they were (R275). -/
def waitsFor (rest : Rest) (s t : State) : Prop :=
  t.wait = .input rest ∧ t.kbFull = s.kbFull ∧ t.kbChar = s.kbChar ∧ t.hostInput = s.hostInput

/-- The frame of an instruction that stores nothing and ends nothing: the registers outside `written`, all of memory, the
console output, the run state, the fault record and the status channel. -/
def frame (written : List RegIdx) (s t : State) : Prop :=
  sameRegsBut written s t ∧ sameMemory s t ∧ t.out = s.out ∧ sameRun s t

/-- The frame of an instruction that stores to `a` alone: every register, `pc`, COND, every other word of memory, the console
output, the run state, the fault record and the status channel. -/
def storeFrame (a : Word) (s t : State) : Prop :=
  sameRegsBut [] s t ∧ t.pc = s.pc ∧ t.cond = s.cond ∧ sameMemoryBut a s t ∧ t.out = s.out ∧ sameRun s t

/-- The instruction is suspended with `rest` still to do, and nothing but the registers in `written` and the hold state has
changed (70_reset_and_hazards.md R275). -/
def holdsWith (rest : Rest) (written : List RegIdx) (s t : State) : Prop :=
  waitsFor rest s t ∧ frame written s t ∧ t.pc = s.pc ∧ t.cond = s.cond

/-- A fault was raised at the address before `s.pc` (60_exceptions.md R241, R242): the record, the run state and the report.
The console output is as before; of the rest nothing is said (R243). -/
def faultedWith (cause : Cause) (s t : State) : Prop :=
  t.run = .faulted ∧ t.fault = some { cause := cause, pcFault := s.pc - 1 } ∧
    t.status = s.status ++ [.fault { cause := cause, pcFault := s.pc - 1 }] ∧ t.out = s.out

/-- The suspended run `t` goes on in the step in which the host delivers a character (70_reset_and_hazards.md R275): that step
answers a next state in which no instruction waits, the character is taken, and `post` holds of the character. -/
def resumesWith (t : State) (post : Byte → State → Prop) : Prop :=
  ∀ (c : Byte) (later : List (Option Byte)), t.run = .running → t.kbFull = false →
    ∃ u, step { t with hostInput := some c :: later } = .next u ∧ post c u ∧ u.wait = .none ∧ u.kbFull = false ∧
      u.hostInput = later

end Sys2Proof.Machine
end

