-- ==== Sys2Proof/Certificates/Slice0/Obligations.lean ====
section
/-! DEFINITION. The statements for the provers, in the order of OBLIGATIONS.json. Each docstring names the rule it formalises.
Where a statement says which words decode to an instruction, the field layout and the opcode values are the spec's decision D1
(30_encoding.md R101, R102 mark them as from general knowledge): notes/assumptions/2.md. -/

open Sys2Proof Sys2Proof.Machine

/-! Arithmetic, condition and operand rules -/

/-- 00_scope.md R9: every field of 1 to 16 bits is extended by copying its top bit. -/
def Obligations.SignExtensionCopiesTheTopBit : Prop :=
  ∀ (n : Nat) (v : BitVec n), 1 ≤ n → n ≤ 16 → ∀ i, i < 16 →
    (sext v).getLsbD i = (if i < n then v.getLsbD i else v.getLsbD (n - 1)) ∧
      (zext v).getLsbD i = (if i < n then v.getLsbD i else false)

/-- 10_state.md R33: the value `setcc` writes, and that it writes nothing else. -/
def Obligations.SetccAssignsOneOfThreeValues : Prop :=
  ∀ (v : Word) (s : State),
    ((s.setcc v).cond = if v = 0x0000 then Cond.z else if v.getLsbD 15 = true then Cond.n else Cond.p) ∧
      (s.setcc v).cond = condByValue v ∧ s.setcc v = { s with cond := (s.setcc v).cond }

/-- 42_load_store.md R177, with 30_encoding.md R103: the effective address is the incremented PC or the base register plus
the signed offset, modulo 2^16. -/
def Obligations.EffectiveAddressesAddTheSignedOffset : Prop :=
  ∀ s : State,
    (∀ off9 : BitVec 9, ((pcRelative off9 s).toNat : Int) = ((s.pc.toNat : Int) + off9.toInt) % 65536) ∧
    (∀ off11 : BitVec 11, ((pcRelative off11 s).toNat : Int) = ((s.pc.toNat : Int) + off11.toInt) % 65536) ∧
    (∀ (baseR : RegIdx) (off6 : BitVec 6),
      ((basePlusOffset baseR off6 s).toNat : Int) = (((s.reg baseR).toNat : Int) + off6.toInt) % 65536)

/-! Operate instructions -/

/-- 40_operate.md R130. -/
def Obligations.AddRegisterGivesTheWrappedSum : Prop :=
  (∀ w : Word, w &&& 0xF020 = 0x1000 → decode w = .addR (bits w 9 3) (bits w 6 3) (bits w 0 3)) ∧
    ∀ (dr sr1 sr2 : RegIdx) (s : State), ∃ t, exec (.addR dr sr1 sr2) s = .next t ∧
      (t.reg dr).toNat = ((s.reg sr1).toNat + (s.reg sr2).toNat) % 65536 ∧ t.cond = condByValue (t.reg dr) ∧
      t.pc = s.pc ∧ frame [dr] s t ∧ sameInput s t

/-- 40_operate.md R131. -/
def Obligations.AddImmediateGivesTheWrappedSum : Prop :=
  (∀ w : Word, w &&& 0xF020 = 0x1020 → decode w = .addI (bits w 9 3) (bits w 6 3) (bits w 0 5)) ∧
    ∀ (dr sr1 : RegIdx) (imm5 : BitVec 5) (s : State), ∃ t, exec (.addI dr sr1 imm5) s = .next t ∧
      ((t.reg dr).toNat : Int) = (((s.reg sr1).toNat : Int) + imm5.toInt) % 65536 ∧ t.cond = condByValue (t.reg dr) ∧
      t.pc = s.pc ∧ frame [dr] s t ∧ sameInput s t

/-- 40_operate.md R132. -/
def Obligations.AndRegisterKeepsTheCommonBits : Prop :=
  (∀ w : Word, w &&& 0xF020 = 0x5000 → decode w = .andR (bits w 9 3) (bits w 6 3) (bits w 0 3)) ∧
    ∀ (dr sr1 sr2 : RegIdx) (s : State), ∃ t, exec (.andR dr sr1 sr2) s = .next t ∧
      (∀ k, (t.reg dr).getLsbD k = ((s.reg sr1).getLsbD k && (s.reg sr2).getLsbD k)) ∧
      t.cond = condByValue (t.reg dr) ∧ t.pc = s.pc ∧ frame [dr] s t ∧ sameInput s t

/-- 40_operate.md R133: the immediate's bit 4 stands for every higher bit. -/
def Obligations.AndImmediateMasksWithTheSignedImmediate : Prop :=
  (∀ w : Word, w &&& 0xF020 = 0x5020 → decode w = .andI (bits w 9 3) (bits w 6 3) (bits w 0 5)) ∧
    ∀ (dr sr1 : RegIdx) (imm5 : BitVec 5) (s : State), ∃ t, exec (.andI dr sr1 imm5) s = .next t ∧
      (∀ k, (t.reg dr).getLsbD k =
        ((s.reg sr1).getLsbD k && (if k < 5 then imm5.getLsbD k else imm5.getLsbD 4))) ∧
      t.cond = condByValue (t.reg dr) ∧ t.pc = s.pc ∧ frame [dr] s t ∧ sameInput s t

/-- 40_operate.md R134. -/
def Obligations.NotGivesTheComplement : Prop :=
  (∀ w : Word, w &&& 0xF000 = 0x9000 → decode w = .not (bits w 9 3) (bits w 6 3)) ∧
    ∀ (dr sr : RegIdx) (s : State), ∃ t, exec (.not dr sr) s = .next t ∧
      (t.reg dr).toNat = 65535 - (s.reg sr).toNat ∧ t.cond = condByValue (t.reg dr) ∧
      t.pc = s.pc ∧ frame [dr] s t ∧ sameInput s t

/-! Control transfer -/

/-- 41_control.md R150. -/
def Obligations.BranchIsTakenOnAMatchingCondition : Prop :=
  (∀ w : Word, w &&& 0xF000 = 0x0000 →
      decode w = .br (w.getLsbD 11) (w.getLsbD 10) (w.getLsbD 9) (bits w 0 9)) ∧
    ∀ (n z p : Bool) (off9 : BitVec 9) (s : State), ∃ t, exec (.br n z p off9) s = .next t ∧
      (n = true ∧ s.cond = .n ∨ z = true ∧ s.cond = .z ∨ p = true ∧ s.cond = .p →
        (t.pc.toNat : Int) = ((s.pc.toNat : Int) + off9.toInt) % 65536) ∧
      (¬ (n = true ∧ s.cond = .n ∨ z = true ∧ s.cond = .z ∨ p = true ∧ s.cond = .p) → t.pc = s.pc) ∧
      t.cond = s.cond ∧ frame [] s t ∧ sameInput s t

/-- 41_control.md R151 and R152: JMP goes to its base register; through R7 it is RET, and the two act alike. -/
def Obligations.JumpGoesToTheBaseRegister : Prop :=
  (∀ w : Word, w &&& 0xF000 = 0xC000 → bits w 6 3 ≠ 7 → decode w = .jmp (bits w 6 3)) ∧
    (∀ w : Word, w &&& 0xF1C0 = 0xC1C0 → decode w = .ret) ∧
    (∀ (baseR : RegIdx) (s : State), ∃ t, exec (.jmp baseR) s = .next t ∧
      t.pc = s.reg baseR ∧ t.cond = s.cond ∧ frame [] s t ∧ sameInput s t) ∧
    ∀ s : State, ∃ t, exec .ret s = .next t ∧ exec (.jmp 7) s = .next t ∧
      t.pc = s.reg 7 ∧ t.cond = s.cond ∧ frame [] s t ∧ sameInput s t

/-- 41_control.md R153. -/
def Obligations.JsrLinksAndJumpsRelative : Prop :=
  (∀ w : Word, w &&& 0xF800 = 0x4800 → decode w = .jsr (bits w 0 11)) ∧
    ∀ (off11 : BitVec 11) (s : State), ∃ t, exec (.jsr off11) s = .next t ∧
      (t.pc.toNat : Int) = ((s.pc.toNat : Int) + off11.toInt) % 65536 ∧ t.reg 7 = s.pc ∧ t.cond = s.cond ∧
      frame [7] s t ∧ sameInput s t

/-- 41_control.md R154: R7 is written first, so JSRR R7 goes on with the next instruction, which is the spec's decision D17
(notes/assumptions/2.md). -/
def Obligations.JsrrLinksBeforeItReadsTheBase : Prop :=
  (∀ w : Word, w &&& 0xF800 = 0x4000 → decode w = .jsrr (bits w 6 3)) ∧
    ∀ (baseR : RegIdx) (s : State), ∃ t, exec (.jsrr baseR) s = .next t ∧
      t.pc = (if baseR = 7 then s.pc else s.reg baseR) ∧ t.reg 7 = s.pc ∧ t.cond = s.cond ∧
      frame [7] s t ∧ sameInput s t

/-! Loads and stores -/

/-- 42_load_store.md R170, with the hold of 70_reset_and_hazards.md R275 at KBDR.
That the step of the host's delivery completes a held LD is the model's choice: notes/assumptions/3.md, 6.md. -/
def Obligations.LdLoadsFromThePcOffset : Prop :=
  (∀ w : Word, w &&& 0xF000 = 0x2000 → decode w = .ld (bits w 9 3) (bits w 0 9)) ∧
    ∀ (dr : RegIdx) (off9 : BitVec 9) (s : State),
      let ea := pcRelative off9 s
      (readable ea s → ∃ t, exec (.ld dr off9) s = .next t ∧
        t.reg dr = wordAt ea s ∧ t.cond = condByValue (wordAt ea s) ∧ t.pc = s.pc ∧ frame [dr] s t ∧
        inputAfter (ea == Config.kbdrAddr) s t) ∧
      (¬ readable ea s → ∃ t, exec (.ld dr off9) s = .next t ∧ holdsWith (.load dr) [] s t ∧
        resumesWith t fun c u => (u.reg dr).toNat = c.toNat ∧ u.cond = condByValue (u.reg dr) ∧ u.pc = s.pc ∧ frame [dr] s u)

/-- 42_load_store.md R171: the pointer read, then the data read, either of which may hold at KBDR (70_reset_and_hazards.md R275).
That the step of the host's delivery completes a held LDI is the model's choice: notes/assumptions/3.md, 6.md. -/
def Obligations.LdiLoadsThroughThePointer : Prop :=
  (∀ w : Word, w &&& 0xF000 = 0xA000 → decode w = .ldi (bits w 9 3) (bits w 0 9)) ∧
    ∀ (dr : RegIdx) (off9 : BitVec 9) (s : State),
      let cell := pcRelative off9 s
      let p := wordAt cell s
      (readable cell s → readable p s → ∃ t, exec (.ldi dr off9) s = .next t ∧
        t.reg dr = wordAt p s ∧ t.cond = condByValue (wordAt p s) ∧ t.pc = s.pc ∧ frame [dr] s t ∧
        inputAfter (cell == Config.kbdrAddr || p == Config.kbdrAddr) s t) ∧
      (¬ readable cell s → ∃ t, exec (.ldi dr off9) s = .next t ∧ holdsWith (.ldiPointer dr) [] s t ∧
        resumesWith t fun c u => u.reg dr = s.mem.read (BitVec.ofNat 16 c.toNat) ∧ u.cond = condByValue (u.reg dr) ∧
          u.pc = s.pc ∧ frame [dr] s u) ∧
      (readable cell s → ¬ readable p s → ∃ t, exec (.ldi dr off9) s = .next t ∧ holdsWith (.load dr) [] s t ∧
        resumesWith t fun c u => (u.reg dr).toNat = c.toNat ∧ u.cond = condByValue (u.reg dr) ∧ u.pc = s.pc ∧ frame [dr] s u)

/-- 42_load_store.md R172, with the hold of 70_reset_and_hazards.md R275 at KBDR.
That the step of the host's delivery completes a held LDR is the model's choice: notes/assumptions/3.md, 6.md. -/
def Obligations.LdrLoadsFromTheBaseOffset : Prop :=
  (∀ w : Word, w &&& 0xF000 = 0x6000 → decode w = .ldr (bits w 9 3) (bits w 6 3) (bits w 0 6)) ∧
    ∀ (dr baseR : RegIdx) (off6 : BitVec 6) (s : State),
      let ea := basePlusOffset baseR off6 s
      (readable ea s → ∃ t, exec (.ldr dr baseR off6) s = .next t ∧
        t.reg dr = wordAt ea s ∧ t.cond = condByValue (wordAt ea s) ∧ t.pc = s.pc ∧ frame [dr] s t ∧
        inputAfter (ea == Config.kbdrAddr) s t) ∧
      (¬ readable ea s → ∃ t, exec (.ldr dr baseR off6) s = .next t ∧ holdsWith (.load dr) [] s t ∧
        resumesWith t fun c u => (u.reg dr).toNat = c.toNat ∧ u.cond = condByValue (u.reg dr) ∧ u.pc = s.pc ∧ frame [dr] s u)

/-- 42_load_store.md R173: LEA reads no memory, so not even KBDR makes it wait. -/
def Obligations.LeaGivesTheAddressAndSetsCond : Prop :=
  (∀ w : Word, w &&& 0xF000 = 0xE000 → decode w = .lea (bits w 9 3) (bits w 0 9)) ∧
    ∀ (dr : RegIdx) (off9 : BitVec 9) (s : State), ∃ t, exec (.lea dr off9) s = .next t ∧
      ((t.reg dr).toNat : Int) = ((s.pc.toNat : Int) + off9.toInt) % 65536 ∧ t.cond = condByValue (t.reg dr) ∧
      t.pc = s.pc ∧ frame [dr] s t ∧ sameInput s t

/-- 42_load_store.md R174. Memory is taken in its canonical form, which every step keeps. -/
def Obligations.StStoresAtThePcOffset : Prop :=
  (∀ w : Word, w &&& 0xF000 = 0x3000 → decode w = .st (bits w 9 3) (bits w 0 9)) ∧
    ∀ (sr : RegIdx) (off9 : BitVec 9) (s : State), Memory.wf s.mem →
      ∃ t, exec (.st sr off9) s = .next t ∧ t.mem.read (pcRelative off9 s) = s.reg sr ∧
        storeFrame (pcRelative off9 s) s t ∧ sameInput s t

/-- 42_load_store.md R175: the pointer read, which may hold at KBDR (70_reset_and_hazards.md R275), then the store to where it
points.
That the step of the host's delivery completes a held STI is the model's choice: notes/assumptions/3.md, 6.md. -/
def Obligations.StiStoresThroughThePointer : Prop :=
  (∀ w : Word, w &&& 0xF000 = 0xB000 → decode w = .sti (bits w 9 3) (bits w 0 9)) ∧
    ∀ (sr : RegIdx) (off9 : BitVec 9) (s : State), Memory.wf s.mem →
      let cell := pcRelative off9 s
      (readable cell s → ∃ t, exec (.sti sr off9) s = .next t ∧ t.mem.read (wordAt cell s) = s.reg sr ∧
        storeFrame (wordAt cell s) s t ∧ inputAfter (cell == Config.kbdrAddr) s t) ∧
      (¬ readable cell s → ∃ t, exec (.sti sr off9) s = .next t ∧ holdsWith (.stiPointer sr) [] s t ∧
        resumesWith t fun c u => u.mem.read (BitVec.ofNat 16 c.toNat) = s.reg sr ∧
          storeFrame (BitVec.ofNat 16 c.toNat) s u)

/-- 42_load_store.md R176. -/
def Obligations.StrStoresAtTheBaseOffset : Prop :=
  (∀ w : Word, w &&& 0xF000 = 0x7000 → decode w = .str (bits w 9 3) (bits w 6 3) (bits w 0 6)) ∧
    ∀ (sr baseR : RegIdx) (off6 : BitVec 6) (s : State), Memory.wf s.mem →
      ∃ t, exec (.str sr baseR off6) s = .next t ∧ t.mem.read (basePlusOffset baseR off6 s) = s.reg sr ∧
        storeFrame (basePlusOffset baseR off6 s) s t ∧ sameInput s t

/-! TRAP and its routines -/

/-- 43_trap.md R208: every vector but the six raises UnknownTrapVector. -/
def Obligations.UnknownTrapVectorFaults : Prop :=
  ∀ v : Byte, v < 0x20 ∨ 0x25 < v →
    (∀ w : Word, w &&& 0xF000 = 0xF000 → bits w 0 8 = v → decode w = .trap v) ∧
      ∀ s : State, ∃ t, exec (.trap v) s = .next t ∧ faultedWith (.unknownTrapVector v) s t

/-- 43_trap.md R200, R201 and 30_encoding.md R109: the vector alone selects the routine. -/
def Obligations.TrapVectorSelectsTheRoutine : Prop :=
  ∀ s : State, exec (.trap 0x20) s = exec .getc s ∧ exec (.trap 0x21) s = exec .out s ∧
    exec (.trap 0x22) s = exec .puts s ∧ exec (.trap 0x23) s = exec .input s ∧
    exec (.trap 0x24) s = exec .putsp s ∧ exec (.trap 0x25) s = exec .halt s

/-- 43_trap.md R202, with the trap entry of R200 and the hold of 70_reset_and_hazards.md R275. That a pending character is the
one taken is the spec's decision D8 (notes/assumptions/2.md).
That the step of the host's delivery completes a held GETC is the model's choice: notes/assumptions/3.md, 6.md. -/
def Obligations.GetcTakesOneCharacter : Prop :=
  (∀ w : Word, w &&& 0xF0FF = 0xF020 → decode w = .getc) ∧
    ∀ s : State,
      (s.kbFull = true → ∃ t, exec .getc s = .next t ∧ (t.reg 0).toNat = s.kbChar.toNat ∧ t.reg 7 = s.pc ∧
        t.pc = s.pc ∧ t.cond = s.cond ∧ frame [0, 7] s t ∧ inputAfter true s t) ∧
      (s.kbFull = false → ∃ t, exec .getc s = .next t ∧ t.reg 7 = s.pc ∧ holdsWith .getc [7] s t ∧
        resumesWith t fun c u => (u.reg 0).toNat = c.toNat ∧ u.reg 7 = s.pc ∧ u.pc = s.pc ∧ u.cond = s.cond ∧
          frame [0, 7] s u)

/-- 43_trap.md R203. -/
def Obligations.OutWritesTheLowCharacter : Prop :=
  (∀ w : Word, w &&& 0xF0FF = 0xF021 → decode w = .out) ∧
    ∀ s : State, ∃ t, exec .out s = .next t ∧
      t.out = s.out ++ [BitVec.ofNat 8 ((s.reg 0).toNat % 256)] ∧ t.reg 7 = s.pc ∧ t.pc = s.pc ∧ t.cond = s.cond ∧
      sameRegsBut [7] s t ∧ sameMemory s t ∧ sameRun s t ∧ sameInput s t

/-- 43_trap.md R204: a string of plain storage is written up to its zero word; one that runs into KBDR waits there with the
characters before it written. (A string of 65,536 words would hold both keyboard registers, so the bound on `ws` leaves no
string of plain storage out; every other string is in `StringRoutinesReadWordByWord`.) -/
def Obligations.PutsWritesUpToTheZeroWord : Prop :=
  (∀ w : Word, w &&& 0xF0FF = 0xF022 → decode w = .puts) ∧
    ∀ (ws : List Word) (s : State), ws.length < 65536 →
      (∀ (i : Nat) (h : i < ws.length), plainAddr (s.reg 0 + BitVec.ofNat 16 i) ∧
        s.mem.read (s.reg 0 + BitVec.ofNat 16 i) = ws[i] ∧ ws[i] ≠ 0) →
      let last := s.reg 0 + BitVec.ofNat 16 ws.length
      let written := s.out ++ ws.map fun w => BitVec.ofNat 8 (w.toNat % 256)
      (plainAddr last → s.mem.read last = 0 → ∃ t, exec .puts s = .next t ∧ t.out = written ∧ t.reg 7 = s.pc ∧
        t.pc = s.pc ∧ t.cond = s.cond ∧ sameRegsBut [7] s t ∧ sameMemory s t ∧ sameRun s t ∧ sameInput s t) ∧
      (last = Config.kbdrAddr → s.kbFull = false → ∃ t, exec .puts s = .next t ∧ t.out = written ∧ t.reg 7 = s.pc ∧
        t.pc = s.pc ∧ t.cond = s.cond ∧ sameRegsBut [7] s t ∧ sameMemory s t ∧ sameRun s t ∧
        waitsFor (.string .puts last) s t)

/-- 43_trap.md R205: the prompt, then the character, its echo and its value in R0; it waits after the prompt. That a pending
character is the one taken is the spec's decision D8, and the zero extension its decision D19 (notes/assumptions/2.md).
That the step of the host's delivery completes a held IN is the model's choice: notes/assumptions/3.md, 6.md. -/
def Obligations.InPromptsThenEchoesOneCharacter : Prop :=
  (∀ w : Word, w &&& 0xF0FF = 0xF023 → decode w = .input) ∧
    ∀ s : State,
      (s.kbFull = true → ∃ t, exec .input s = .next t ∧ t.out = s.out ++ Config.inPrompt ++ [s.kbChar] ∧
        (t.reg 0).toNat = s.kbChar.toNat ∧ t.reg 7 = s.pc ∧ t.pc = s.pc ∧ t.cond = s.cond ∧
        sameRegsBut [0, 7] s t ∧ sameMemory s t ∧ sameRun s t ∧ inputAfter true s t) ∧
      (s.kbFull = false → ∃ t, exec .input s = .next t ∧ t.out = s.out ++ Config.inPrompt ∧ t.reg 7 = s.pc ∧
        t.pc = s.pc ∧ t.cond = s.cond ∧ sameRegsBut [7] s t ∧ sameMemory s t ∧ sameRun s t ∧ waitsFor .input s t ∧
        resumesWith t fun c u => u.out = s.out ++ Config.inPrompt ++ [c] ∧ (u.reg 0).toNat = c.toNat ∧ u.reg 7 = s.pc ∧
          u.pc = s.pc ∧ u.cond = s.cond ∧ sameRegsBut [0, 7] s u ∧ sameMemory s u ∧ sameRun s u)

/-- 43_trap.md R206: two characters a word, the low one always and the high one where it is not zero. -/
def Obligations.PutspWritesPackedCharacters : Prop :=
  (∀ w : Word, w &&& 0xF0FF = 0xF024 → decode w = .putsp) ∧
    ∀ (ws : List Word) (s : State), ws.length < 65536 →
      (∀ (i : Nat) (h : i < ws.length), plainAddr (s.reg 0 + BitVec.ofNat 16 i) ∧
        s.mem.read (s.reg 0 + BitVec.ofNat 16 i) = ws[i] ∧ ws[i] ≠ 0) →
      let last := s.reg 0 + BitVec.ofNat 16 ws.length
      let written := s.out ++ ws.flatMap fun w =>
        if w.toNat / 256 = 0 then [BitVec.ofNat 8 (w.toNat % 256)]
        else [BitVec.ofNat 8 (w.toNat % 256), BitVec.ofNat 8 (w.toNat / 256)]
      (plainAddr last → s.mem.read last = 0 → ∃ t, exec .putsp s = .next t ∧ t.out = written ∧ t.reg 7 = s.pc ∧
        t.pc = s.pc ∧ t.cond = s.cond ∧ sameRegsBut [7] s t ∧ sameMemory s t ∧ sameRun s t ∧ sameInput s t) ∧
      (last = Config.kbdrAddr → s.kbFull = false → ∃ t, exec .putsp s = .next t ∧ t.out = written ∧ t.reg 7 = s.pc ∧
        t.pc = s.pc ∧ t.cond = s.cond ∧ sameRegsBut [7] s t ∧ sameMemory s t ∧ sameRun s t ∧
        waitsFor (.string .putsp last) s t)

/-- 43_trap.md R204, R206, for every string whatever addresses it runs over: both routines begin at R0 after the trap entry,
and each word is read through the memory port and ends the routine, makes it wait, or is written and followed by the next.
How often the host may deliver meanwhile, and that one step reads at most 65,536 words and the next one goes on, are the
model's choices: notes/assumptions/4.md, 5.md. -/
def Obligations.StringRoutinesReadWordByWord : Prop :=
  (∀ s : State, exec .puts s = .next (stringLoop .puts 65536 (s.reg 0) (trapEntry s)) ∧
      exec .putsp s = .next (stringLoop .putsp 65536 (s.reg 0) (trapEntry s))) ∧
    (∀ (kind : StringKind) (a : Word) (s : State), s.run = .running → s.wait = .none → s.stringRest = some (kind, a) →
      step s = .next (stringLoop kind 65536 a { hostTurn s with stringRest := none })) ∧
    ∀ (kind : StringKind) (fuel : Nat) (a : Word) (s : State),
      let s1 := if a = Config.kbsrAddr then hostTurn s else s
      let s2 := if a = Config.kbdrAddr then { s1 with kbFull := false, wait := .none } else s1
      (stringLoop kind 0 a s = { s with stringRest := some (kind, a) }) ∧
      (¬ readable a s1 → stringLoop kind (fuel + 1) a s = { s1 with wait := .input (.string kind a) }) ∧
      (readable a s1 → wordAt a s1 = 0 → stringLoop kind (fuel + 1) a s = s2) ∧
      (readable a s1 → wordAt a s1 ≠ 0 → stringLoop kind (fuel + 1) a s =
        stringLoop kind fuel (a + 1) { s2 with out := s2.out ++ stringChars kind (wordAt a s1) })

/-- 43_trap.md R207, with 10_state.md R38, R41: HALTED, R7 written, one halt notice on the status channel, no console output. -/
def Obligations.HaltStopsTheRunWithANotice : Prop :=
  (∀ w : Word, w &&& 0xF0FF = 0xF025 → decode w = .halt) ∧
    ∀ s : State, ∃ t, exec .halt s = .next t ∧ t.run = .halted ∧
      t.status = s.status ++ [.haltNotice Config.haltNotice] ∧ t.out = s.out ∧ t.reg 7 = s.pc ∧ t.pc = s.pc ∧
      t.cond = s.cond ∧ t.fault = s.fault ∧ t.stringRest = s.stringRest ∧ sameRegsBut [7] s t ∧ sameMemory s t ∧
      sameInput s t

/-! Illegal opcodes -/

/-- 44_illegal.md R230 and 60_exceptions.md R241, R242. -/
def Obligations.RtiRaisesIllegalOpcode : Prop :=
  (∀ w : Word, w &&& 0xF000 = 0x8000 → decode w = .rti) ∧
    ∀ s : State, ∃ t, exec .rti s = .next t ∧ faultedWith (.illegalOpcode 0x8) s t

/-- 44_illegal.md R231 and 60_exceptions.md R241, R242. -/
def Obligations.ReservedOpcodeRaisesIllegalOpcode : Prop :=
  (∀ w : Word, w &&& 0xF000 = 0xD000 → decode w = .reserved) ∧
    ∀ s : State, ∃ t, exec .reserved s = .next t ∧ faultedWith (.illegalOpcode 0xD) s t

/-! The memory port and the keyboard -/

/-- 20_memory.md R62: reads of the two keyboard registers come from the device, every other read from storage. -/
def Obligations.MemReadAnswersDeviceOrStorage : Prop :=
  ∀ (a : Word) (s : State),
    (a = 0xFE00 → memRead a s = some (kbsrValue s, s)) ∧
    (a = 0xFE02 → memRead a s = (consoleGet s).map fun r => (zext r.1, r.2)) ∧
    (a ≠ 0xFE00 → a ≠ 0xFE02 → memRead a s = some (s.mem.read a, s))

/-- 20_memory.md R64: KBSR shows whether a character is pending, reading it changes nothing and never waits, and it is not
writable. The address and the exact value are the spec's decisions D4 and D5 (notes/assumptions/2.md). -/
def Obligations.KbsrReadShowsAPendingCharacter : Prop :=
  ∀ s : State, memRead 0xFE00 s = some (if s.kbFull = true then 0x8000 else 0x0000, s) ∧
    ∀ v, memRead 0xFE00 (memWrite 0xFE00 v s) =
      some (if s.kbFull = true then 0x8000 else 0x0000, memWrite 0xFE00 v s)

/-- 20_memory.md R65 and R66: a KBDR read takes the pending character, zero-extended, and has to wait without one. The address
is the spec's decision D4 and the wait its decision D6 (notes/assumptions/2.md). -/
def Obligations.KbdrReadTakesTheCharacter : Prop :=
  ∀ s : State,
    (s.kbFull = true → ∃ v t, memRead 0xFE02 s = some (v, t) ∧ v.toNat = s.kbChar.toNat ∧
      t = { s with kbFull := false, wait := .none }) ∧
    (s.kbFull = false → memRead 0xFE02 s = none)

/-- 20_memory.md R63: a write stores one word and does nothing else; later reads of the keyboard registers do not see it,
which is the spec's decision D7 (notes/assumptions/2.md). -/
def Obligations.MemWriteStoresOneWordOnly : Prop :=
  ∀ (a v : Word) (s : State), Memory.wf s.mem →
    (memWrite a v s).mem.read a = v ∧ (∀ b, b ≠ a → (memWrite a v s).mem.read b = s.mem.read b) ∧
      memWrite a v s = { s with mem := (memWrite a v s).mem } ∧
      (∀ r ∈ [(0xFE00 : Word), 0xFE02], (memRead r (memWrite a v s)).map (·.1) = (memRead r s).map (·.1))

/-- 20_memory.md R77: the very next fetch sees a store to its address. -/
def Obligations.StoreIsSeenByTheNextFetch : Prop :=
  ∀ (a v : Word) (s : State), Memory.wf s.mem → plainAddr a → s.pc = a →
    ∃ t, fetch (memWrite a v s) = some (v, t) ∧ t.pc.toNat = (a.toNat + 1) % 65536

/-- 20_memory.md R67: the host fills the latch only while it is empty, and touches nothing else. That its deliveries are a
list in State is the model's choice: notes/assumptions/3.md. -/
def Obligations.HostFillsOnlyAnEmptyLatch : Prop :=
  ∀ s : State,
    (s.kbFull = true → (hostTurn s).kbFull = true ∧ (hostTurn s).kbChar = s.kbChar) ∧
      (s.kbFull = false → ∀ c later, s.hostInput = some c :: later →
        hostTurn s = { s with kbFull := true, kbChar := c, hostInput := later }) ∧
      (∀ later, s.hostInput = none :: later → hostTurn s = { s with hostInput := later }) ∧
      (s.hostInput = [] → hostTurn s = s) ∧
      hostTurn s = { s with
        kbFull := (hostTurn s).kbFull, kbChar := (hostTurn s).kbChar, hostInput := (hostTurn s).hostInput }

/-! The step -/

/-- 70_reset_and_hazards.md R274: with no instruction in progress, a step is the host's turn (notes/assumptions/3.md), then
the instruction at `pc`, decoded and executed with `pc` past it. -/
def Obligations.StepRunsTheDecodedInstruction : Prop :=
  ∀ s : State, s.run = .running → s.wait = .none → s.stringRest = none →
    let s0 := hostTurn s
    (plainAddr s0.pc → step s = exec (decode (s0.mem.read s0.pc)) { s0 with pc := s0.pc + 1 }) ∧
    (s0.pc = 0xFE00 → step s = exec (decode (if s0.kbFull = true then 0x8000 else 0x0000)) { s0 with pc := s0.pc + 1 }) ∧
    (s0.pc = 0xFE02 → s0.kbFull = true →
      step s = exec (decode (zext s0.kbChar)) { s0 with pc := s0.pc + 1, kbFull := false, wait := .none }) ∧
    (s0.pc = 0xFE02 → s0.kbFull = false → step s = .next { s0 with wait := .input .fetch })

/-- 30_encoding.md R101, R102: words written out from the layouts decode to the instructions they stand for. -/
def Obligations.WrittenOutWordsDecode : Prop :=
  decode 0b0001_000_001_0_00_010 = .addR 0 1 2 ∧ decode 0b0001_000_001_1_11101 = .addI 0 1 29 ∧
    decode 0b0101_011_100_0_00_101 = .andR 3 4 5 ∧ decode 0b1001_001_010_111111 = .not 1 2 ∧
    decode 0b0000_1_0_1_000000101 = .br true false true 5 ∧ decode 0b1100_000_111_000000 = .ret ∧
    decode 0b0100_1_00000010000 = .jsr 16 ∧ decode 0b0110_100_010_111111 = .ldr 4 2 63 ∧
    decode 0b1011_000_000000101 = .sti 0 5 ∧ decode 0b1111_0000_00100101 = .halt ∧
    decode 0b1111_0000_11111111 = .trap 0xFF ∧ decode 0b1101_111111111111 = .reserved

/-- 70_reset_and_hazards.md R275, for a fetch and for a string that wait at KBDR: when the host delivers `c`, the fetch goes on
with it as the instruction word and the string with it as its next word. That the delivery and the rest of the instruction are
one step, and the number of words a step reads, are the model's choices: notes/assumptions/3.md, 5.md, 6.md. -/
def Obligations.HeldFetchesAndStringsGoOn : Prop :=
  ∀ (s : State) (c : Byte) (later : List (Option Byte)), s.run = .running → s.kbFull = false →
    s.hostInput = some c :: later →
    let taken := { s with kbFull := false, kbChar := c, wait := .none, hostInput := later }
    (s.wait = .input .fetch → s.pc = 0xFE02 →
      step s = exec (decode (BitVec.ofNat 16 c.toNat)) { taken with pc := 0xFE03 }) ∧
    ∀ kind, s.wait = .input (.string kind 0xFE02) →
      step s = .next (if c = 0 then taken
        else stringLoop kind 65535 0xFE03 { taken with out := s.out ++ stringChars kind (BitVec.ofNat 16 c.toNat) })

/-- 70_reset_and_hazards.md R275 and 10_state.md R37: while no character comes the engine only waits. That a waiting step
answers a next state is the model's choice: notes/assumptions/6.md. -/
def Obligations.WaitingEngineOnlyWaits : Prop :=
  ∀ (s : State) (rest : Rest), s.run = .running → s.wait = .input rest → s.kbFull = false →
    (s.hostInput = [] → step s = .next s) ∧
      ∀ later, s.hostInput = none :: later → step s = .next { s with hostInput := later }

/-- 10_state.md R35, 60_exceptions.md R241, R255: HALTED and FAULTED are terminal. That a step in them answers the state itself
is the model's choice: notes/assumptions/7.md. -/
def Obligations.EndedRunsStayAsTheyAre : Prop :=
  ∀ s : State, s.run = .halted ∨ s.run = .faulted → step s = .next s

/-! Rules about the whole machine -/

/-- 60_exceptions.md R244: every instruction, in every state, answers a next state, and so does every step. That a fault, a wait
and an ended run are next states is the model's choice: notes/assumptions/6.md, 7.md, 8.md. -/
def Obligations.EveryStepAnswersANextState : Prop :=
  (∀ (i : Instr) (s : State), ∃ t, exec i s = .next t) ∧ ∀ s : State, ∃ t, step s = .next t

/-- 10_state.md R35 and 60_exceptions.md R244: an instruction ends a run only by HALT or by a fault, and those always do. -/
def Obligations.OnlyHaltAndFaultsEndARun : Prop :=
  ∀ (i : Instr) (s t : State), s.run = .running → exec i s = .next t →
    (t.run = .halted ↔ isHalt i = true) ∧ (t.run = .faulted ↔ raisesFault i = true)

/-- 10_state.md R34: COND is written by ADD, AND, NOT, LD, LDI, LDR and LEA alone (a fault leaves nothing known, R243). -/
def Obligations.OnlyResultInstructionsWriteCond : Prop :=
  ∀ (i : Instr) (s t : State), setsCond i = false → raisesFault i = false → exec i s = .next t → t.cond = s.cond

/-- 10_state.md R31: each instruction writes only the general registers the table gives it. -/
def Obligations.OnlyTheNamedRegistersAreWritten : Prop :=
  ∀ (i : Instr) (s t : State), raisesFault i = false → exec i s = .next t → sameRegsBut (writtenRegs i) s t

/-- 10_state.md R31 and 43_trap.md R201: only ST, STI and STR write memory. -/
def Obligations.OnlyStoresWriteMemory : Prop :=
  ∀ (i : Instr) (s t : State), storesToMemory i = false → raisesFault i = false → exec i s = .next t → sameMemory s t

/-- 10_state.md R40: the console output is written only by appending. -/
def Obligations.ConsoleOutputOnlyGrows : Prop :=
  ∀ s t : State, step s = .next t → s.out <+: t.out

/-- 10_state.md R39: a fault record, once there, stays. -/
def Obligations.FaultRecordIsNeverCleared : Prop :=
  ∀ (s t : State) (r : FaultRecord), s.Inv → step s = .next t → s.fault = some r → t.fault = some r

/-- 70_reset_and_hazards.md R278: what the host will deliver later does not change what an instruction does now, but for
PUTS and PUTSP, during which the host may deliver (notes/assumptions/4.md). After a fault only what R243 leaves to be observed is
compared. -/
def Obligations.LaterInputDoesNotChangeAnInstruction : Prop :=
  ∀ (i : Instr) (s : State) (later : List (Option Byte)), runsString i = false →
    ∃ t u, exec i s = .next t ∧ exec i { s with hostInput := later } = .next u ∧
      (raisesFault i = false → u = { t with hostInput := later }) ∧
      u.run = t.run ∧ u.fault = t.fault ∧ u.status = t.status ∧ u.out = t.out

/-- Decode and encode agree (30_encoding.md R102, R113): the canonical word of every well-formed instruction decodes to it. -/
def Obligations.DecodeOfEncodeIsTheInstruction : Prop :=
  ∀ i : Instr, i.wellFormed = true → decode (encode i) = i

/-- 30_encoding.md R100: every one of the 65,536 words decodes to a well-formed instruction. -/
def Obligations.EveryWordDecodesToAWellFormedInstruction : Prop :=
  ∀ w : Word, (decode w).wellFormed = true

/-- The invariant of the model holds after reset (10_state.md R44). Its clause that a RUNNING engine has reported nothing rests on
the status channel being empty at reset, which R44 does not list and which is the model's choice: notes/assumptions/10.md. -/
def Obligations.ResetMeetsTheInvariant : Prop :=
  State.reset.Inv

/-- The invariant of the model is kept by every step: canonical memory, a fault record exactly in FAULTED and only an
execution fault's, no instruction in progress once the run has ended and at most one before, a wait only with the latch empty,
and a status channel that tells how the run ended (10_state.md R35, R37, R39, R41; 60_exceptions.md R241, R245). The canonical
form and the field that a string routine goes on from are the model's choices: notes/assumptions/1.md, 5.md. -/
def Obligations.StepKeepsTheInvariant : Prop :=
  ∀ s t : State, s.Inv → step s = .next t → t.Inv

/-- Two canonical memories that read alike everywhere are equal, so that equal memories are equal data
(notes/assumptions/1.md). -/
def Obligations.CanonicalMemoriesThatReadAlikeAreEqual : Prop :=
  ∀ m m' : Memory, Memory.wf m → Memory.wf m' → (∀ a, m.read a = m'.read a) → m = m'

/-! Reset, images and boot -/

/-- 70_reset_and_hazards.md R270: the reset value of every piece of state the rule names. The values of the registers and of
memory are the spec's decisions D12 to D15 (notes/assumptions/2.md). -/
def Obligations.ResetPutsEveryPieceInItsResetValue : Prop :=
  (∀ r, State.reset.reg r = 0x0000) ∧ State.reset.pc = 0x3000 ∧ State.reset.cond = .z ∧ State.reset.wait = .none ∧
    State.reset.fault = none ∧ State.reset.kbFull = false ∧ State.reset.out = [] ∧
    ∀ a, State.reset.mem.read a = 0x0000

/-- 20_memory.md R79 and R80: an image's words, high byte first, stand at consecutive addresses from its origin up to the end of
the address space; a trailing single byte is ignored (the spec's decision D22, notes/assumptions/2.md), and every other cell is
as it was. Every image of two bytes or more has this form. -/
def Obligations.LoaderPlacesTheImagesWords : Prop :=
  ∀ (hi lo : Byte) (ws : List Word) (tail : List Byte) (m : Memory), tail.length ≤ 1 → Memory.wf m →
    let origin := hi.toNat * 256 + lo.toNat
    let body := ws.flatMap fun w => [BitVec.ofNat 8 (w.toNat / 256), BitVec.ofNat 8 (w.toNat % 256)]
    ∃ m', loadImage (some (hi :: lo :: (body ++ tail))) m = some m' ∧ Memory.wf m' ∧
      ∀ a : Word, m'.read a =
        if origin ≤ a.toNat ∧ a.toNat < origin + ws.length then ws.getD (a.toNat - origin) 0 else m.read a

/-- 20_memory.md R81: a load fails exactly when the stream cannot be read or has fewer than two bytes. -/
def Obligations.LoadFailsOnAnUnreadableOrShortStream : Prop :=
  ∀ (image : ImageStream) (m : Memory),
    loadImage image m = none ↔ image = none ∨ ∃ bytes, image = some bytes ∧ bytes.length < 2

/-- 70_reset_and_hazards.md R271, R273 and 20_memory.md R82: with every image loaded the machine runs from `RESET_PC` with the
reset values, and later images lie over earlier ones; the first image that fails is reported and nothing runs. -/
def Obligations.BootLoadsInOrderOrReportsTheFailure : Prop :=
  (∀ input, boot [] input = .next { State.reset with hostInput := input }) ∧
    (∀ images image input t m', boot images input = .next t → loadImage image t.mem = some m' →
      boot (images ++ [image]) input = .next { t with mem := m' }) ∧
    (∀ images image more input t, boot images input = .next t → loadImage image t.mem = none →
      boot (images ++ image :: more) input = .fault (.imageLoadError images.length)) ∧
    ∀ images input t, boot images input = .next t →
      t.run = .running ∧ t.pc = 0x3000 ∧ t = { State.reset with mem := t.mem, hostInput := input }
end

