-- ==== Sys2Proof/Laws/Decode.lean ====
section
/-! SUPPORT. Bit fields of words, what the decoder reads from a word that matches a row of the opcode table, and the routes of
the two opcodes with named sub-cases. -/

namespace Sys2Proof.Laws

/-! Fields of words -/

theorem bits_or (v w : Word) (lo len : Nat) : bits (v ||| w) lo len = bits v lo len ||| bits w lo len := by
  ext i hi
  simp [bits, BitVec.getElem_extractLsb']

theorem bits_and (v w : Word) (lo len : Nat) : bits (v &&& w) lo len = bits v lo len &&& bits w lo len := by
  ext i hi
  simp [bits, BitVec.getElem_extractLsb']

theorem getLsbD_place {n : Nat} (lo : Nat) (v : BitVec n) (i : Nat) :
    (place lo v).getLsbD i = (decide (i < 16) && (decide (lo ≤ i) && v.getLsbD (i - lo))) := by
  simp only [place, BitVec.getLsbD_shiftLeft, BitVec.getLsbD_setWidth]
  by_cases h : i < 16
  · by_cases h' : i < lo
    · have : ¬ lo ≤ i := by omega
      simp [h', this]
    · have h1 : i - lo < 16 := by omega
      have h2 : lo ≤ i := by omega
      simp [h, h', h1, h2]
  · simp [h]

/-- A field read where it was placed. -/
theorem bits_place_same {n : Nat} (lo : Nat) (v : BitVec n) (h : lo + n ≤ 16) : bits (place lo v) lo n = v := by
  ext i hi
  have : lo + i < 16 := by omega
  rw [BitVec.getElem_extractLsb', getLsbD_place, ← BitVec.getLsbD_eq_getElem]
  simp [this]

/-- A field read where another one was placed. -/
theorem bits_place_disjoint {n : Nat} (lo : Nat) (v : BitVec n) (lo' len : Nat) (h : lo + n ≤ lo' ∨ lo' + len ≤ lo) :
    bits (place lo v) lo' len = 0 := by
  ext i hi
  rw [BitVec.getElem_extractLsb', getLsbD_place]
  rcases h with h | h
  · have : n ≤ lo' + i - lo := by omega
    simp [BitVec.getLsbD_of_ge _ _ this]
  · have : ¬ lo ≤ lo' + i := by omega
    simp [this]

/-- A field that lies inside a mask is the same field of the match. -/
theorem bits_of_mask {w m c : Word} (h : w &&& m = c) (lo len : Nat) (hm : bits m lo len = BitVec.allOnes len) :
    bits w lo len = bits c lo len := by
  rw [← h, bits_and, hm, BitVec.and_allOnes]

/-- A bit that lies inside a mask is the same bit of the match. -/
theorem bit_of_mask {w m c : Word} (h : w &&& m = c) (i : Nat) (hm : m.getLsbD i = true) :
    w.getLsbD i = c.getLsbD i := by
  rw [← h, BitVec.getLsbD_and, hm, Bool.and_true]

/-! What the decoder reads from a word that matches a row (30_encoding.md R101, R102, R113) -/

theorem decode_addR {w : Word} (h : w &&& 0xF020 = 0x1000) : decode w = .addR (bits w 9 3) (bits w 6 3) (bits w 0 3) := by
  have op : bits w 12 4 = 0x1#4 := bits_of_mask h 12 4 (by decide)
  have mode : w.getLsbD 5 = false := bit_of_mask h 5 (by decide)
  simp only [decode, op, mode]; rfl

theorem decode_addI {w : Word} (h : w &&& 0xF020 = 0x1020) : decode w = .addI (bits w 9 3) (bits w 6 3) (bits w 0 5) := by
  have op : bits w 12 4 = 0x1#4 := bits_of_mask h 12 4 (by decide)
  have mode : w.getLsbD 5 = true := bit_of_mask h 5 (by decide)
  simp only [decode, op, mode]; rfl

theorem decode_andR {w : Word} (h : w &&& 0xF020 = 0x5000) : decode w = .andR (bits w 9 3) (bits w 6 3) (bits w 0 3) := by
  have op : bits w 12 4 = 0x5#4 := bits_of_mask h 12 4 (by decide)
  have mode : w.getLsbD 5 = false := bit_of_mask h 5 (by decide)
  simp only [decode, op, mode]; rfl

theorem decode_andI {w : Word} (h : w &&& 0xF020 = 0x5020) : decode w = .andI (bits w 9 3) (bits w 6 3) (bits w 0 5) := by
  have op : bits w 12 4 = 0x5#4 := bits_of_mask h 12 4 (by decide)
  have mode : w.getLsbD 5 = true := bit_of_mask h 5 (by decide)
  simp only [decode, op, mode]; rfl

theorem decode_not {w : Word} (h : w &&& 0xF000 = 0x9000) : decode w = .not (bits w 9 3) (bits w 6 3) := by
  have op : bits w 12 4 = 0x9#4 := bits_of_mask h 12 4 (by decide)
  simp only [decode, op]

theorem decode_br {w : Word} (h : w &&& 0xF000 = 0x0000) : decode w = .br (w.getLsbD 11) (w.getLsbD 10) (w.getLsbD 9) (bits w 0 9) := by
  have op : bits w 12 4 = 0x0#4 := bits_of_mask h 12 4 (by decide)
  simp only [decode, op]

theorem decode_jsr {w : Word} (h : w &&& 0xF800 = 0x4800) : decode w = .jsr (bits w 0 11) := by
  have op : bits w 12 4 = 0x4#4 := bits_of_mask h 12 4 (by decide)
  have mode : w.getLsbD 11 = true := bit_of_mask h 11 (by decide)
  simp only [decode, op, mode]; rfl

theorem decode_jsrr {w : Word} (h : w &&& 0xF800 = 0x4000) : decode w = .jsrr (bits w 6 3) := by
  have op : bits w 12 4 = 0x4#4 := bits_of_mask h 12 4 (by decide)
  have mode : w.getLsbD 11 = false := bit_of_mask h 11 (by decide)
  simp only [decode, op, mode]; rfl

theorem decode_ld {w : Word} (h : w &&& 0xF000 = 0x2000) : decode w = .ld (bits w 9 3) (bits w 0 9) := by
  have op : bits w 12 4 = 0x2#4 := bits_of_mask h 12 4 (by decide)
  simp only [decode, op]

theorem decode_ldi {w : Word} (h : w &&& 0xF000 = 0xA000) : decode w = .ldi (bits w 9 3) (bits w 0 9) := by
  have op : bits w 12 4 = 0xA#4 := bits_of_mask h 12 4 (by decide)
  simp only [decode, op]

theorem decode_ldr {w : Word} (h : w &&& 0xF000 = 0x6000) : decode w = .ldr (bits w 9 3) (bits w 6 3) (bits w 0 6) := by
  have op : bits w 12 4 = 0x6#4 := bits_of_mask h 12 4 (by decide)
  simp only [decode, op]

theorem decode_lea {w : Word} (h : w &&& 0xF000 = 0xE000) : decode w = .lea (bits w 9 3) (bits w 0 9) := by
  have op : bits w 12 4 = 0xE#4 := bits_of_mask h 12 4 (by decide)
  simp only [decode, op]

theorem decode_st {w : Word} (h : w &&& 0xF000 = 0x3000) : decode w = .st (bits w 9 3) (bits w 0 9) := by
  have op : bits w 12 4 = 0x3#4 := bits_of_mask h 12 4 (by decide)
  simp only [decode, op]

theorem decode_sti {w : Word} (h : w &&& 0xF000 = 0xB000) : decode w = .sti (bits w 9 3) (bits w 0 9) := by
  have op : bits w 12 4 = 0xB#4 := bits_of_mask h 12 4 (by decide)
  simp only [decode, op]

theorem decode_str {w : Word} (h : w &&& 0xF000 = 0x7000) : decode w = .str (bits w 9 3) (bits w 6 3) (bits w 0 6) := by
  have op : bits w 12 4 = 0x7#4 := bits_of_mask h 12 4 (by decide)
  simp only [decode, op]

theorem decode_rti {w : Word} (h : w &&& 0xF000 = 0x8000) : decode w = .rti := by
  have op : bits w 12 4 = 0x8#4 := bits_of_mask h 12 4 (by decide)
  simp only [decode, op]

theorem decode_reserved {w : Word} (h : w &&& 0xF000 = 0xD000) : decode w = .reserved := by
  have op : bits w 12 4 = 0xD#4 := bits_of_mask h 12 4 (by decide)
  simp only [decode, op]

theorem decode_opcodeJmp {w : Word} (h : w &&& 0xF000 = 0xC000) : decode w = decodeJmp (bits w 6 3) := by
  have op : bits w 12 4 = 0xC#4 := bits_of_mask h 12 4 (by decide)
  simp only [decode, op]

theorem decode_opcodeTrap {w : Word} (h : w &&& 0xF000 = 0xF000) : decode w = decodeTrap (bits w 0 8) := by
  have op : bits w 12 4 = 0xF#4 := bits_of_mask h 12 4 (by decide)
  simp only [decode, op]; rfl

theorem decode_ret {w : Word} (h : w &&& 0xF1C0 = 0xC1C0) : decode w = .ret := by
  have op : bits w 12 4 = 0xC#4 := bits_of_mask h 12 4 (by decide)
  have base : bits w 6 3 = 7 := bits_of_mask h 6 3 (by decide)
  simp only [decode, op, base]; rfl

theorem decode_jmp {w : Word} (h : w &&& 0xF000 = 0xC000) (hb : bits w 6 3 ≠ 7) : decode w = .jmp (bits w 6 3) := by
  rw [decode_opcodeJmp h, decodeJmp, if_neg hb]

theorem decode_trap {w : Word} (h : w &&& 0xF000 = 0xF000) (hv : isDefinedVector (bits w 0 8) = false) :
    decode w = .trap (bits w 0 8) := by
  rw [decode_opcodeTrap h]
  simp only [isDefinedVector, Bool.or_eq_false_iff, beq_eq_false_iff_ne] at hv
  simp [decodeTrap, hv]

theorem decode_getc {w : Word} (h : w &&& 0xF0FF = 0xF020) : decode w = .getc := by
  have op : bits w 12 4 = 0xF#4 := bits_of_mask h 12 4 (by decide)
  have vec : bits w 0 8 = 0x20#8 := bits_of_mask h 0 8 (by decide)
  simp only [decode, op, vec]; rfl

theorem decode_out {w : Word} (h : w &&& 0xF0FF = 0xF021) : decode w = .out := by
  have op : bits w 12 4 = 0xF#4 := bits_of_mask h 12 4 (by decide)
  have vec : bits w 0 8 = 0x21#8 := bits_of_mask h 0 8 (by decide)
  simp only [decode, op, vec]; rfl

theorem decode_puts {w : Word} (h : w &&& 0xF0FF = 0xF022) : decode w = .puts := by
  have op : bits w 12 4 = 0xF#4 := bits_of_mask h 12 4 (by decide)
  have vec : bits w 0 8 = 0x22#8 := bits_of_mask h 0 8 (by decide)
  simp only [decode, op, vec]; rfl

theorem decode_input {w : Word} (h : w &&& 0xF0FF = 0xF023) : decode w = .input := by
  have op : bits w 12 4 = 0xF#4 := bits_of_mask h 12 4 (by decide)
  have vec : bits w 0 8 = 0x23#8 := bits_of_mask h 0 8 (by decide)
  simp only [decode, op, vec]; rfl

theorem decode_putsp {w : Word} (h : w &&& 0xF0FF = 0xF024) : decode w = .putsp := by
  have op : bits w 12 4 = 0xF#4 := bits_of_mask h 12 4 (by decide)
  have vec : bits w 0 8 = 0x24#8 := bits_of_mask h 0 8 (by decide)
  simp only [decode, op, vec]; rfl

theorem decode_halt {w : Word} (h : w &&& 0xF0FF = 0xF025) : decode w = .halt := by
  have op : bits w 12 4 = 0xF#4 := bits_of_mask h 12 4 (by decide)
  have vec : bits w 0 8 = 0x25#8 := bits_of_mask h 0 8 (by decide)
  simp only [decode, op, vec]; rfl

end Sys2Proof.Laws
end

