-- ==== Sys2Proof/Laws/State.lean ====
section
/-! SUPPORT. What each update of the state leaves in each field: one lemma for each field of each update, and register reads
after register writes. -/

namespace Sys2Proof.Machine

variable (s : State)

/-! setReg -/

@[simp] theorem setReg_regs (r : RegIdx) (v : Word) : (s.setReg r v).regs = s.regs.set r.toNat v := rfl
@[simp] theorem setReg_pc (r : RegIdx) (v : Word) : (s.setReg r v).pc = s.pc := rfl
@[simp] theorem setReg_cond (r : RegIdx) (v : Word) : (s.setReg r v).cond = s.cond := rfl
@[simp] theorem setReg_mem (r : RegIdx) (v : Word) : (s.setReg r v).mem = s.mem := rfl
@[simp] theorem setReg_run (r : RegIdx) (v : Word) : (s.setReg r v).run = s.run := rfl
@[simp] theorem setReg_wait (r : RegIdx) (v : Word) : (s.setReg r v).wait = s.wait := rfl
@[simp] theorem setReg_fault (r : RegIdx) (v : Word) : (s.setReg r v).fault = s.fault := rfl
@[simp] theorem setReg_kbFull (r : RegIdx) (v : Word) : (s.setReg r v).kbFull = s.kbFull := rfl
@[simp] theorem setReg_kbChar (r : RegIdx) (v : Word) : (s.setReg r v).kbChar = s.kbChar := rfl
@[simp] theorem setReg_out (r : RegIdx) (v : Word) : (s.setReg r v).out = s.out := rfl
@[simp] theorem setReg_status (r : RegIdx) (v : Word) : (s.setReg r v).status = s.status := rfl
@[simp] theorem setReg_hostInput (r : RegIdx) (v : Word) : (s.setReg r v).hostInput = s.hostInput := rfl
@[simp] theorem setReg_stringRest (r : RegIdx) (v : Word) : (s.setReg r v).stringRest = s.stringRest := rfl
@[simp] theorem setReg_freeCount (r : RegIdx) (v : Word) : (s.setReg r v).freeCount = s.freeCount := rfl

/-! setPc -/

@[simp] theorem setPc_regs (target : Word) : (s.setPc target).regs = s.regs := rfl
@[simp] theorem setPc_pc (target : Word) : (s.setPc target).pc = target := rfl
@[simp] theorem setPc_cond (target : Word) : (s.setPc target).cond = s.cond := rfl
@[simp] theorem setPc_mem (target : Word) : (s.setPc target).mem = s.mem := rfl
@[simp] theorem setPc_run (target : Word) : (s.setPc target).run = s.run := rfl
@[simp] theorem setPc_wait (target : Word) : (s.setPc target).wait = s.wait := rfl
@[simp] theorem setPc_fault (target : Word) : (s.setPc target).fault = s.fault := rfl
@[simp] theorem setPc_kbFull (target : Word) : (s.setPc target).kbFull = s.kbFull := rfl
@[simp] theorem setPc_kbChar (target : Word) : (s.setPc target).kbChar = s.kbChar := rfl
@[simp] theorem setPc_out (target : Word) : (s.setPc target).out = s.out := rfl
@[simp] theorem setPc_status (target : Word) : (s.setPc target).status = s.status := rfl
@[simp] theorem setPc_hostInput (target : Word) : (s.setPc target).hostInput = s.hostInput := rfl
@[simp] theorem setPc_stringRest (target : Word) : (s.setPc target).stringRest = s.stringRest := rfl
@[simp] theorem setPc_freeCount (target : Word) : (s.setPc target).freeCount = s.freeCount := rfl

/-! setcc -/

@[simp] theorem setcc_regs (v : Word) : (s.setcc v).regs = s.regs := rfl
@[simp] theorem setcc_pc (v : Word) : (s.setcc v).pc = s.pc := rfl
@[simp] theorem setcc_cond (v : Word) : (s.setcc v).cond = condOf v := rfl
@[simp] theorem setcc_mem (v : Word) : (s.setcc v).mem = s.mem := rfl
@[simp] theorem setcc_run (v : Word) : (s.setcc v).run = s.run := rfl
@[simp] theorem setcc_wait (v : Word) : (s.setcc v).wait = s.wait := rfl
@[simp] theorem setcc_fault (v : Word) : (s.setcc v).fault = s.fault := rfl
@[simp] theorem setcc_kbFull (v : Word) : (s.setcc v).kbFull = s.kbFull := rfl
@[simp] theorem setcc_kbChar (v : Word) : (s.setcc v).kbChar = s.kbChar := rfl
@[simp] theorem setcc_out (v : Word) : (s.setcc v).out = s.out := rfl
@[simp] theorem setcc_status (v : Word) : (s.setcc v).status = s.status := rfl
@[simp] theorem setcc_hostInput (v : Word) : (s.setcc v).hostInput = s.hostInput := rfl
@[simp] theorem setcc_stringRest (v : Word) : (s.setcc v).stringRest = s.stringRest := rfl
@[simp] theorem setcc_freeCount (v : Word) : (s.setcc v).freeCount = s.freeCount := rfl

/-! memWrite -/

@[simp] theorem memWrite_regs (a v : Word) : (memWrite a v s).regs = s.regs := rfl
@[simp] theorem memWrite_pc (a v : Word) : (memWrite a v s).pc = s.pc := rfl
@[simp] theorem memWrite_cond (a v : Word) : (memWrite a v s).cond = s.cond := rfl
@[simp] theorem memWrite_mem (a v : Word) : (memWrite a v s).mem = s.mem.write a v := rfl
@[simp] theorem memWrite_run (a v : Word) : (memWrite a v s).run = s.run := rfl
@[simp] theorem memWrite_wait (a v : Word) : (memWrite a v s).wait = s.wait := rfl
@[simp] theorem memWrite_fault (a v : Word) : (memWrite a v s).fault = s.fault := rfl
@[simp] theorem memWrite_kbFull (a v : Word) : (memWrite a v s).kbFull = s.kbFull := rfl
@[simp] theorem memWrite_kbChar (a v : Word) : (memWrite a v s).kbChar = s.kbChar := rfl
@[simp] theorem memWrite_out (a v : Word) : (memWrite a v s).out = s.out := rfl
@[simp] theorem memWrite_status (a v : Word) : (memWrite a v s).status = s.status := rfl
@[simp] theorem memWrite_hostInput (a v : Word) : (memWrite a v s).hostInput = s.hostInput := rfl
@[simp] theorem memWrite_stringRest (a v : Word) : (memWrite a v s).stringRest = s.stringRest := rfl
@[simp] theorem memWrite_freeCount (a v : Word) : (memWrite a v s).freeCount = s.freeCount := rfl

/-! hold -/

@[simp] theorem hold_regs (rest : Rest) : (s.hold rest).regs = s.regs := rfl
@[simp] theorem hold_pc (rest : Rest) : (s.hold rest).pc = s.pc := rfl
@[simp] theorem hold_cond (rest : Rest) : (s.hold rest).cond = s.cond := rfl
@[simp] theorem hold_mem (rest : Rest) : (s.hold rest).mem = s.mem := rfl
@[simp] theorem hold_run (rest : Rest) : (s.hold rest).run = s.run := rfl
@[simp] theorem hold_wait (rest : Rest) : (s.hold rest).wait = .input rest := rfl
@[simp] theorem hold_fault (rest : Rest) : (s.hold rest).fault = s.fault := rfl
@[simp] theorem hold_kbFull (rest : Rest) : (s.hold rest).kbFull = s.kbFull := rfl
@[simp] theorem hold_kbChar (rest : Rest) : (s.hold rest).kbChar = s.kbChar := rfl
@[simp] theorem hold_out (rest : Rest) : (s.hold rest).out = s.out := rfl
@[simp] theorem hold_status (rest : Rest) : (s.hold rest).status = s.status := rfl
@[simp] theorem hold_hostInput (rest : Rest) : (s.hold rest).hostInput = s.hostInput := rfl
@[simp] theorem hold_stringRest (rest : Rest) : (s.hold rest).stringRest = s.stringRest := rfl
@[simp] theorem hold_freeCount (rest : Rest) : (s.hold rest).freeCount = s.freeCount := rfl

/-! proceed -/

@[simp] theorem proceed_regs : s.proceed.regs = s.regs := rfl
@[simp] theorem proceed_pc : s.proceed.pc = s.pc := rfl
@[simp] theorem proceed_cond : s.proceed.cond = s.cond := rfl
@[simp] theorem proceed_mem : s.proceed.mem = s.mem := rfl
@[simp] theorem proceed_run : s.proceed.run = s.run := rfl
@[simp] theorem proceed_wait : s.proceed.wait = .none := rfl
@[simp] theorem proceed_fault : s.proceed.fault = s.fault := rfl
@[simp] theorem proceed_kbFull : s.proceed.kbFull = s.kbFull := rfl
@[simp] theorem proceed_kbChar : s.proceed.kbChar = s.kbChar := rfl
@[simp] theorem proceed_out : s.proceed.out = s.out := rfl
@[simp] theorem proceed_status : s.proceed.status = s.status := rfl
@[simp] theorem proceed_hostInput : s.proceed.hostInput = s.hostInput := rfl
@[simp] theorem proceed_stringRest : s.proceed.stringRest = s.stringRest := rfl
@[simp] theorem proceed_freeCount : s.proceed.freeCount = s.freeCount := rfl

/-! setStringRest -/

@[simp] theorem setStringRest_regs (rest : Option (StringKind × Word)) : (s.setStringRest rest).regs = s.regs := rfl
@[simp] theorem setStringRest_pc (rest : Option (StringKind × Word)) : (s.setStringRest rest).pc = s.pc := rfl
@[simp] theorem setStringRest_cond (rest : Option (StringKind × Word)) : (s.setStringRest rest).cond = s.cond := rfl
@[simp] theorem setStringRest_mem (rest : Option (StringKind × Word)) : (s.setStringRest rest).mem = s.mem := rfl
@[simp] theorem setStringRest_run (rest : Option (StringKind × Word)) : (s.setStringRest rest).run = s.run := rfl
@[simp] theorem setStringRest_wait (rest : Option (StringKind × Word)) : (s.setStringRest rest).wait = s.wait := rfl
@[simp] theorem setStringRest_fault (rest : Option (StringKind × Word)) : (s.setStringRest rest).fault = s.fault := rfl
@[simp] theorem setStringRest_kbFull (rest : Option (StringKind × Word)) : (s.setStringRest rest).kbFull = s.kbFull := rfl
@[simp] theorem setStringRest_kbChar (rest : Option (StringKind × Word)) : (s.setStringRest rest).kbChar = s.kbChar := rfl
@[simp] theorem setStringRest_out (rest : Option (StringKind × Word)) : (s.setStringRest rest).out = s.out := rfl
@[simp] theorem setStringRest_status (rest : Option (StringKind × Word)) : (s.setStringRest rest).status = s.status := rfl
@[simp] theorem setStringRest_hostInput (rest : Option (StringKind × Word)) : (s.setStringRest rest).hostInput = s.hostInput := rfl
@[simp] theorem setStringRest_stringRest (rest : Option (StringKind × Word)) : (s.setStringRest rest).stringRest = rest := rfl
@[simp] theorem setStringRest_freeCount (rest : Option (StringKind × Word)) : (s.setStringRest rest).freeCount = s.freeCount := rfl

/-! takeChar -/

@[simp] theorem takeChar_regs : s.takeChar.regs = s.regs := rfl
@[simp] theorem takeChar_pc : s.takeChar.pc = s.pc := rfl
@[simp] theorem takeChar_cond : s.takeChar.cond = s.cond := rfl
@[simp] theorem takeChar_mem : s.takeChar.mem = s.mem := rfl
@[simp] theorem takeChar_run : s.takeChar.run = s.run := rfl
@[simp] theorem takeChar_wait : s.takeChar.wait = .none := rfl
@[simp] theorem takeChar_fault : s.takeChar.fault = s.fault := rfl
@[simp] theorem takeChar_kbFull : s.takeChar.kbFull = false := rfl
@[simp] theorem takeChar_kbChar : s.takeChar.kbChar = s.kbChar := rfl
@[simp] theorem takeChar_out : s.takeChar.out = s.out := rfl
@[simp] theorem takeChar_status : s.takeChar.status = s.status := rfl
@[simp] theorem takeChar_hostInput : s.takeChar.hostInput = s.hostInput := rfl
@[simp] theorem takeChar_stringRest : s.takeChar.stringRest = s.stringRest := rfl
@[simp] theorem takeChar_freeCount : s.takeChar.freeCount = s.freeCount := rfl

/-! consoleOut -/

@[simp] theorem consoleOut_regs (cs : List Byte) : (consoleOut cs s).regs = s.regs := rfl
@[simp] theorem consoleOut_pc (cs : List Byte) : (consoleOut cs s).pc = s.pc := rfl
@[simp] theorem consoleOut_cond (cs : List Byte) : (consoleOut cs s).cond = s.cond := rfl
@[simp] theorem consoleOut_mem (cs : List Byte) : (consoleOut cs s).mem = s.mem := rfl
@[simp] theorem consoleOut_run (cs : List Byte) : (consoleOut cs s).run = s.run := rfl
@[simp] theorem consoleOut_wait (cs : List Byte) : (consoleOut cs s).wait = s.wait := rfl
@[simp] theorem consoleOut_fault (cs : List Byte) : (consoleOut cs s).fault = s.fault := rfl
@[simp] theorem consoleOut_kbFull (cs : List Byte) : (consoleOut cs s).kbFull = s.kbFull := rfl
@[simp] theorem consoleOut_kbChar (cs : List Byte) : (consoleOut cs s).kbChar = s.kbChar := rfl
@[simp] theorem consoleOut_out (cs : List Byte) : (consoleOut cs s).out = s.out ++ cs := rfl
@[simp] theorem consoleOut_status (cs : List Byte) : (consoleOut cs s).status = s.status := rfl
@[simp] theorem consoleOut_hostInput (cs : List Byte) : (consoleOut cs s).hostInput = s.hostInput := rfl
@[simp] theorem consoleOut_stringRest (cs : List Byte) : (consoleOut cs s).stringRest = s.stringRest := rfl
@[simp] theorem consoleOut_freeCount (cs : List Byte) : (consoleOut cs s).freeCount = s.freeCount := rfl

/-! reportStatus -/

@[simp] theorem reportStatus_regs (r : StatusReport) : (reportStatus r s).regs = s.regs := rfl
@[simp] theorem reportStatus_pc (r : StatusReport) : (reportStatus r s).pc = s.pc := rfl
@[simp] theorem reportStatus_cond (r : StatusReport) : (reportStatus r s).cond = s.cond := rfl
@[simp] theorem reportStatus_mem (r : StatusReport) : (reportStatus r s).mem = s.mem := rfl
@[simp] theorem reportStatus_run (r : StatusReport) : (reportStatus r s).run = s.run := rfl
@[simp] theorem reportStatus_wait (r : StatusReport) : (reportStatus r s).wait = s.wait := rfl
@[simp] theorem reportStatus_fault (r : StatusReport) : (reportStatus r s).fault = s.fault := rfl
@[simp] theorem reportStatus_kbFull (r : StatusReport) : (reportStatus r s).kbFull = s.kbFull := rfl
@[simp] theorem reportStatus_kbChar (r : StatusReport) : (reportStatus r s).kbChar = s.kbChar := rfl
@[simp] theorem reportStatus_out (r : StatusReport) : (reportStatus r s).out = s.out := rfl
@[simp] theorem reportStatus_status (r : StatusReport) : (reportStatus r s).status = s.status ++ [r] := rfl
@[simp] theorem reportStatus_hostInput (r : StatusReport) : (reportStatus r s).hostInput = s.hostInput := rfl
@[simp] theorem reportStatus_stringRest (r : StatusReport) : (reportStatus r s).stringRest = s.stringRest := rfl
@[simp] theorem reportStatus_freeCount (r : StatusReport) : (reportStatus r s).freeCount = s.freeCount := rfl

/-! haltRun -/

@[simp] theorem haltRun_regs : (haltRun s).regs = s.regs := rfl
@[simp] theorem haltRun_pc : (haltRun s).pc = s.pc := rfl
@[simp] theorem haltRun_cond : (haltRun s).cond = s.cond := rfl
@[simp] theorem haltRun_mem : (haltRun s).mem = s.mem := rfl
@[simp] theorem haltRun_run : (haltRun s).run = .halted := rfl
@[simp] theorem haltRun_wait : (haltRun s).wait = s.wait := rfl
@[simp] theorem haltRun_fault : (haltRun s).fault = s.fault := rfl
@[simp] theorem haltRun_kbFull : (haltRun s).kbFull = s.kbFull := rfl
@[simp] theorem haltRun_kbChar : (haltRun s).kbChar = s.kbChar := rfl
@[simp] theorem haltRun_out : (haltRun s).out = s.out := rfl
@[simp] theorem haltRun_status : (haltRun s).status = s.status ++ [.haltNotice Config.haltNotice] := rfl
@[simp] theorem haltRun_hostInput : (haltRun s).hostInput = s.hostInput := rfl
@[simp] theorem haltRun_stringRest : (haltRun s).stringRest = s.stringRest := rfl
@[simp] theorem haltRun_freeCount : (haltRun s).freeCount = s.freeCount := rfl

/-! trapEntry -/

@[simp] theorem trapEntry_regs : (trapEntry s).regs = s.regs.set 7 s.pc := rfl
@[simp] theorem trapEntry_pc : (trapEntry s).pc = s.pc := rfl
@[simp] theorem trapEntry_cond : (trapEntry s).cond = s.cond := rfl
@[simp] theorem trapEntry_mem : (trapEntry s).mem = s.mem := rfl
@[simp] theorem trapEntry_run : (trapEntry s).run = s.run := rfl
@[simp] theorem trapEntry_wait : (trapEntry s).wait = s.wait := rfl
@[simp] theorem trapEntry_fault : (trapEntry s).fault = s.fault := rfl
@[simp] theorem trapEntry_kbFull : (trapEntry s).kbFull = s.kbFull := rfl
@[simp] theorem trapEntry_kbChar : (trapEntry s).kbChar = s.kbChar := rfl
@[simp] theorem trapEntry_out : (trapEntry s).out = s.out := rfl
@[simp] theorem trapEntry_status : (trapEntry s).status = s.status := rfl
@[simp] theorem trapEntry_hostInput : (trapEntry s).hostInput = s.hostInput := rfl
@[simp] theorem trapEntry_stringRest : (trapEntry s).stringRest = s.stringRest := rfl
@[simp] theorem trapEntry_freeCount : (trapEntry s).freeCount = s.freeCount := rfl

/-! writeResult -/

@[simp] theorem writeResult_regs (dr : RegIdx) (v : Word) : (writeResult dr v s).regs = s.regs.set dr.toNat v := rfl
@[simp] theorem writeResult_pc (dr : RegIdx) (v : Word) : (writeResult dr v s).pc = s.pc := rfl
@[simp] theorem writeResult_cond (dr : RegIdx) (v : Word) : (writeResult dr v s).cond = condOf v := rfl
@[simp] theorem writeResult_mem (dr : RegIdx) (v : Word) : (writeResult dr v s).mem = s.mem := rfl
@[simp] theorem writeResult_run (dr : RegIdx) (v : Word) : (writeResult dr v s).run = s.run := rfl
@[simp] theorem writeResult_wait (dr : RegIdx) (v : Word) : (writeResult dr v s).wait = s.wait := rfl
@[simp] theorem writeResult_fault (dr : RegIdx) (v : Word) : (writeResult dr v s).fault = s.fault := rfl
@[simp] theorem writeResult_kbFull (dr : RegIdx) (v : Word) : (writeResult dr v s).kbFull = s.kbFull := rfl
@[simp] theorem writeResult_kbChar (dr : RegIdx) (v : Word) : (writeResult dr v s).kbChar = s.kbChar := rfl
@[simp] theorem writeResult_out (dr : RegIdx) (v : Word) : (writeResult dr v s).out = s.out := rfl
@[simp] theorem writeResult_status (dr : RegIdx) (v : Word) : (writeResult dr v s).status = s.status := rfl
@[simp] theorem writeResult_hostInput (dr : RegIdx) (v : Word) : (writeResult dr v s).hostInput = s.hostInput := rfl
@[simp] theorem writeResult_stringRest (dr : RegIdx) (v : Word) : (writeResult dr v s).stringRest = s.stringRest := rfl
@[simp] theorem writeResult_freeCount (dr : RegIdx) (v : Word) : (writeResult dr v s).freeCount = s.freeCount := rfl

/-! raise -/

@[simp] theorem raise_regs (cause : Cause) : (raise cause s).regs = Config.faultedRegs s.freeCount := rfl
@[simp] theorem raise_pc (cause : Cause) : (raise cause s).pc = Config.faultedPc s.freeCount := rfl
@[simp] theorem raise_cond (cause : Cause) : (raise cause s).cond = Config.faultedCond s.freeCount := rfl
@[simp] theorem raise_mem (cause : Cause) : (raise cause s).mem = Memory.ofCells (Config.faultedCells s.freeCount) := rfl
@[simp] theorem raise_run (cause : Cause) : (raise cause s).run = .faulted := rfl
@[simp] theorem raise_wait (cause : Cause) : (raise cause s).wait = s.wait := rfl
@[simp] theorem raise_fault (cause : Cause) : (raise cause s).fault = some { cause := cause, pcFault := s.pc - 1 } := rfl
@[simp] theorem raise_kbFull (cause : Cause) : (raise cause s).kbFull = s.kbFull := rfl
@[simp] theorem raise_kbChar (cause : Cause) : (raise cause s).kbChar = s.kbChar := rfl
@[simp] theorem raise_out (cause : Cause) : (raise cause s).out = s.out := rfl
@[simp] theorem raise_status (cause : Cause) : (raise cause s).status = s.status ++ [.fault { cause := cause, pcFault := s.pc - 1 }] := rfl
@[simp] theorem raise_hostInput (cause : Cause) : (raise cause s).hostInput = s.hostInput := rfl
@[simp] theorem raise_stringRest (cause : Cause) : (raise cause s).stringRest = s.stringRest := rfl
@[simp] theorem raise_freeCount (cause : Cause) : (raise cause s).freeCount = s.freeCount + 1 := rfl

/-! Register reads -/

@[simp] theorem reg_setReg (r q : RegIdx) (v : Word) : (s.setReg r v).reg q = if q = r then v else s.reg q := by
  by_cases h : q = r
  · subst h
    simp [State.reg]
  · have : r.toNat ≠ q.toNat := fun e => h (BitVec.eq_of_toNat_eq e.symm)
    simp [State.reg, h, Vector.getElem_set_ne _ _ this]

/-- Only the register file decides what a register reads. -/
theorem reg_congr {s t : State} (h : t.regs = s.regs) (r : RegIdx) : t.reg r = s.reg r := by
  simp only [State.reg, h]

@[simp] theorem reg_setPc (target : Word) (r : RegIdx) : (s.setPc target).reg r = s.reg r := rfl
@[simp] theorem reg_setcc (v : Word) (r : RegIdx) : (s.setcc v).reg r = s.reg r := rfl
@[simp] theorem reg_memWrite (a v : Word) (r : RegIdx) : (memWrite a v s).reg r = s.reg r := rfl
@[simp] theorem reg_hold (rest : Rest) (r : RegIdx) : (s.hold rest).reg r = s.reg r := rfl
@[simp] theorem reg_proceed (r : RegIdx) : s.proceed.reg r = s.reg r := rfl
@[simp] theorem reg_setStringRest (rest : Option (StringKind × Word)) (r : RegIdx) : (s.setStringRest rest).reg r = s.reg r := rfl
@[simp] theorem reg_takeChar (r : RegIdx) : s.takeChar.reg r = s.reg r := rfl
@[simp] theorem reg_consoleOut (cs : List Byte) (r : RegIdx) : (consoleOut cs s).reg r = s.reg r := rfl
@[simp] theorem reg_haltRun (r : RegIdx) : (haltRun s).reg r = s.reg r := rfl

@[simp] theorem reg_writeResult (dr r : RegIdx) (v : Word) :
    (writeResult dr v s).reg r = if r = dr then v else s.reg r :=
  reg_setReg s dr r v

@[simp] theorem reg_trapEntry (r : RegIdx) : (trapEntry s).reg r = if r = 7 then s.pc else s.reg r :=
  reg_setReg s 7 r s.pc

end Sys2Proof.Machine
end

