-- ==== Sys2Proof/Laws/Operands.lean ====
section
/-! SUPPORT. The operand forms and the condition test in the words of numbers and fields. -/

namespace Sys2Proof.Machine

/-- Adding a sign-extended field adds its signed value modulo 2^16 (00_scope.md R8, R9). -/
theorem toNat_add_sext {n : Nat} (a : Word) (v : BitVec n) :
    ((a + sext v).toNat : Int) = ((a.toNat : Int) + v.toInt) % 65536 := by
  have h : a + sext v = BitVec.ofInt 16 ((a.toNat : Int) + v.toInt) := by
    rw [BitVec.ofInt_add, sext, BitVec.signExtend]
    simp
  rw [h, BitVec.toNat_ofInt]
  simp
  omega

/-- A zero-extended character keeps its number. -/
@[simp] theorem toNat_zext_byte (c : Byte) : (zext c).toNat = c.toNat := by
  simp only [zext, BitVec.toNat_setWidth]
  omega

/-- A zero-extended character is never the address of a keyboard register (it is at most 0xFF). -/
theorem zext_byte_ne (c : Byte) : zext c ≠ Config.kbsrAddr ∧ zext c ≠ Config.kbdrAddr := by
  have h := toNat_zext_byte c
  have hc := c.isLt
  constructor <;> intro e <;> rw [e] at h <;> simp [Config.kbsrAddr, Config.kbdrAddr] at h <;> omega

/-- The mask test of R106 is the three-way match it stands for. -/
theorem branchTaken_iff (n z p : Bool) (c : Cond) :
    branchTaken n z p c = true ↔ n = true ∧ c = .n ∨ z = true ∧ c = .z ∨ p = true ∧ c = .p := by
  cases n <;> cases z <;> cases p <;> cases c <;> decide

end Sys2Proof.Machine
end

