-- ==== Sys2Proof/Laws/Memory.lean ====
section
/-! SUPPORT. The laws of the storage array: a read after a write, and that every operation keeps the canonical form. -/

namespace Sys2Proof.Machine

/-! Cells -/

/-- The canonical form of a memory with one more cell in front. -/
theorem Memory.wf_cons {k : Nat} {x : Word} {m : Memory} :
    Memory.wf ((k, x) :: m) ↔
      (k < 2 ^ 16 ∧ x ≠ Config.memReset) ∧ (∀ c ∈ m, k < c.1) ∧ Memory.wf m := by
  simp only [Memory.wf, List.pairwise_cons, List.mem_cons, forall_eq_or_imp]
  exact ⟨fun ⟨⟨a, b⟩, c, d⟩ => ⟨c, a, b, d⟩, fun ⟨c, a, b, d⟩ => ⟨⟨a, b⟩, c, d⟩⟩

/-- An address below every listed one reads as the reset value. -/
theorem Memory.readAt_of_lt {m : Memory} {n : Nat} (h : ∀ c ∈ m, n < c.1) : Memory.readAt m n = Config.memReset := by
  induction m with
  | nil => rfl
  | cons c m ih =>
    obtain ⟨k, x⟩ := c
    have hk : k ≠ n := by have := h (k, x) (by simp); simp only at this; omega
    rw [Memory.readAt, if_neg hk]
    exact ih fun c hc => h c (by simp [hc])

theorem Memory.readAt_consCell {n j : Nat} {v : Word} {m : Memory} (h : ∀ c ∈ m, n < c.1) :
    Memory.readAt (Memory.consCell n v m) j = if j = n then v else Memory.readAt m j := by
  unfold Memory.consCell
  by_cases hj : j = n
  · subst hj
    split
    · next hv => simp [hv, Memory.readAt_of_lt h]
    · simp [Memory.readAt]
  · have : ¬ n = j := fun e => hj e.symm
    split <;> simp [Memory.readAt, this]

theorem Memory.wf_consCell {n : Nat} {v : Word} {m : Memory} (hn : n < 2 ^ 16) (h : ∀ c ∈ m, n < c.1)
    (hm : Memory.wf m) : Memory.wf (Memory.consCell n v m) := by
  unfold Memory.consCell
  split
  · exact hm
  · next hv => exact Memory.wf_cons.2 ⟨⟨hn, hv⟩, h, hm⟩

/-! One write -/

theorem Memory.mem_writeAt {m : Memory} {n : Nat} {v : Word} {c : Cell} (h : c ∈ Memory.writeAt m n v) :
    c = (n, v) ∨ c ∈ m := by
  induction m with
  | nil =>
    unfold Memory.writeAt Memory.consCell at h
    split at h <;> simp_all
  | cons d m ih =>
    obtain ⟨k, x⟩ := d
    unfold Memory.writeAt Memory.consCell at h
    split at h
    · split at h <;> simp_all
    · split at h
      · split at h
        · exact .inr (List.mem_cons_of_mem _ h)
        · rcases List.mem_cons.1 h with h | h
          · exact .inl h
          · exact .inr (List.mem_cons_of_mem _ h)
      · rcases List.mem_cons.1 h with h | h
        · exact .inr (by simp [h])
        · rcases ih h with h | h
          · exact .inl h
          · exact .inr (List.mem_cons_of_mem _ h)

/-- A write keeps the canonical form. -/
theorem Memory.wf_writeAt {m : Memory} (hm : Memory.wf m) {n : Nat} (hn : n < 2 ^ 16) (v : Word) :
    Memory.wf (Memory.writeAt m n v) := by
  induction m with
  | nil => exact Memory.wf_consCell hn (by simp) hm
  | cons c m ih =>
    obtain ⟨k, x⟩ := c
    obtain ⟨hc, hlt, hm'⟩ := Memory.wf_cons.1 hm
    unfold Memory.writeAt
    split
    · next h =>
      refine Memory.wf_consCell hn ?_ hm
      intro c hc
      rcases List.mem_cons.1 hc with rfl | hc
      · exact h
      · exact Nat.lt_trans h (hlt c hc)
    · next h =>
      split
      · next e => exact Memory.wf_consCell hn (by rw [e]; exact hlt) hm'
      · next e =>
        refine Memory.wf_cons.2 ⟨hc, ?_, ih hm'⟩
        intro c hc
        rcases Memory.mem_writeAt hc with rfl | hc
        · simp only; omega
        · exact hlt c hc

/-- A read after a write: the written word at its own address, and what stood there everywhere else. -/
theorem Memory.readAt_writeAt {m : Memory} (hm : Memory.wf m) (n j : Nat) (v : Word) :
    Memory.readAt (Memory.writeAt m n v) j = if j = n then v else Memory.readAt m j := by
  induction m with
  | nil => exact Memory.readAt_consCell (by simp)
  | cons c m ih =>
    obtain ⟨k, x⟩ := c
    obtain ⟨-, hlt, hm'⟩ := Memory.wf_cons.1 hm
    unfold Memory.writeAt
    split
    · next h =>
      refine Memory.readAt_consCell ?_
      intro c hc
      rcases List.mem_cons.1 hc with rfl | hc
      · exact h
      · exact Nat.lt_trans h (hlt c hc)
    · next h =>
      split
      · next e =>
        subst e
        rw [Memory.readAt_consCell hlt]
        by_cases hj : j = n
        · simp [hj]
        · have : ¬ n = j := fun e => hj e.symm
          simp [hj, Memory.readAt, this]
      · next e =>
        simp only [Memory.readAt]
        by_cases hk : k = j
        · subst hk
          have : ¬ k = n := fun e' => e e'.symm
          simp [this]
        · simp [hk, ih hm']

@[simp] theorem Memory.read_nil (a : Word) : Memory.read [] a = Config.memReset := rfl

/-- A read after a write, by address word (20_memory.md R61). -/
theorem Memory.read_write {m : Memory} (hm : Memory.wf m) (a b v : Word) :
    Memory.read (Memory.write m a v) b = if b = a then v else Memory.read m b := by
  simp only [Memory.read, Memory.write, Memory.readAt_writeAt hm, BitVec.toNat_inj]

theorem Memory.wf_nil : Memory.wf [] := by simp [Memory.wf]

theorem Memory.wf_write {m : Memory} (hm : Memory.wf m) (a v : Word) : Memory.wf (Memory.write m a v) :=
  Memory.wf_writeAt hm a.isLt v

theorem Memory.wf_foldl_write {m : Memory} (hm : Memory.wf m) (cells : List (Word × Word)) :
    Memory.wf (cells.foldl (fun m c => Memory.write m c.1 c.2) m) := by
  induction cells generalizing m with
  | nil => exact hm
  | cons c cells ih => exact ih (Memory.wf_write hm c.1 c.2)

theorem Memory.wf_ofCells (cells : List (Word × Word)) : Memory.wf (Memory.ofCells cells) :=
  Memory.wf_foldl_write Memory.wf_nil cells

/-! The image loader -/

theorem wf_placeWords {m : Memory} (hm : Memory.wf m) (n : Nat) (ws : List Word) : Memory.wf (placeWords n ws m) := by
  induction ws generalizing n m with
  | nil => exact hm
  | cons w ws ih =>
    unfold placeWords
    split
    · next h => exact ih (Memory.wf_writeAt hm h w) (n + 1)
    · exact hm

theorem wf_loadImage {image : ImageStream} {m m' : Memory} (hm : Memory.wf m) (h : loadImage image m = some m') :
    Memory.wf m' := by
  unfold loadImage at h
  split at h
  · cases h; exact wf_placeWords hm _ _
  all_goals cases h

theorem wf_loadImages {images : List ImageStream} {k : Nat} {m m' : Memory} (hm : Memory.wf m)
    (h : loadImages k images m = .ok m') : Memory.wf m' := by
  induction images generalizing k m with
  | nil => cases h; exact hm
  | cons image images ih =>
    unfold loadImages at h
    split at h
    · next h1 => exact ih (wf_loadImage hm h1) h
    · cases h

end Sys2Proof.Machine
end

