-- ==== Sys2Proof/Laws/Ops.lean ====
section
/-! SUPPORT. What each shared operation can do, said once: the host's turn, the latch, the memory port, the reads that may
hold, and the string routines. -/

namespace Sys2Proof.Machine

/-! The host's turn -/

/-- Everything a host's turn can do. -/
theorem hostTurn_cases (s : State) :
    hostTurn s = s ∨ (∃ later, s.hostInput = none :: later ∧ hostTurn s = { s with hostInput := later }) ∨
      ∃ c later, s.hostInput = some c :: later ∧ s.kbFull = false ∧
        hostTurn s = { s with kbFull := true, kbChar := c, hostInput := later } := by
  unfold hostTurn
  split
  · exact .inl rfl
  · next later h => exact .inr (.inl ⟨later, h, rfl⟩)
  · next c later h =>
    split
    · exact .inl rfl
    · next hf => exact .inr (.inr ⟨c, later, h, by simpa using hf, rfl⟩)

/-- A host's turn touches nothing but the latch and the host's own deliveries. -/
theorem hostTurn_frame (s : State) :
    (hostTurn s).regs = s.regs ∧ (hostTurn s).pc = s.pc ∧ (hostTurn s).cond = s.cond ∧ (hostTurn s).mem = s.mem ∧
      (hostTurn s).run = s.run ∧ (hostTurn s).wait = s.wait ∧ (hostTurn s).fault = s.fault ∧
      (hostTurn s).out = s.out ∧ (hostTurn s).status = s.status ∧ (hostTurn s).freeCount = s.freeCount ∧
      (hostTurn s).stringRest = s.stringRest := by
  rcases hostTurn_cases s with h | ⟨later, -, h⟩ | ⟨c, later, -, -, h⟩ <;> simp [h]

theorem stringHostTurn_frame (a : Word) (s : State) :
    (stringHostTurn a s).regs = s.regs ∧ (stringHostTurn a s).pc = s.pc ∧ (stringHostTurn a s).cond = s.cond ∧
      (stringHostTurn a s).mem = s.mem ∧ (stringHostTurn a s).run = s.run ∧ (stringHostTurn a s).wait = s.wait ∧
      (stringHostTurn a s).fault = s.fault ∧ (stringHostTurn a s).out = s.out ∧
      (stringHostTurn a s).status = s.status ∧ (stringHostTurn a s).freeCount = s.freeCount ∧
      (stringHostTurn a s).stringRest = s.stringRest := by
  unfold stringHostTurn
  split
  · exact hostTurn_frame s
  · simp

/-! The latch and the memory port -/

theorem consoleGet_full {s : State} (h : s.kbFull = true) :
    consoleGet s = some (s.kbChar, s.takeChar) := by
  simp [consoleGet, h]

theorem consoleGet_empty {s : State} (h : s.kbFull = false) : consoleGet s = none := by
  simp [consoleGet, h]

/-- A read that completes at once gives the word of its address; at KBDR it also takes the character. -/
theorem memRead_readable {a : Word} {s : State} (h : readable a s) :
    memRead a s =
      some (wordAt a s, if a = Config.kbdrAddr then s.takeChar else s) := by
  unfold memRead wordAt kbsrValue
  by_cases h1 : a = Config.kbsrAddr
  · have h2 : ¬ Config.kbsrAddr = Config.kbdrAddr := by decide
    simp [h1, h2]
  · by_cases h2 : a = Config.kbdrAddr
    · have h3 : ¬ Config.kbdrAddr = Config.kbsrAddr := by decide
      simp [h2, h3, consoleGet_full (h h2)]
    · simp [h1, h2]

/-- A read that does not complete at once is one of KBDR with the latch empty. -/
theorem memRead_not_readable {a : Word} {s : State} (h : ¬ readable a s) :
    a = Config.kbdrAddr ∧ s.kbFull = false ∧ memRead a s = none := by
  simp only [readable, Classical.not_imp, Bool.not_eq_true] at h
  have h3 : ¬ Config.kbdrAddr = Config.kbsrAddr := by decide
  exact ⟨h.1, h.2, by simp [memRead, h.1, h3, consoleGet_empty h.2]⟩

/-- Everything a memory read that completes can do. -/
theorem memRead_cases {a : Word} {s s' : State} {v : Word} (h : memRead a s = some (v, s')) :
    v = wordAt a s ∧ (a ≠ Config.kbdrAddr ∧ s' = s ∨
      a = Config.kbdrAddr ∧ s.kbFull = true ∧ s' = s.takeChar) := by
  by_cases hr : readable a s
  · rw [memRead_readable hr] at h
    simp only [Option.some.injEq, Prod.mk.injEq] at h
    obtain ⟨rfl, rfl⟩ := h
    by_cases h2 : a = Config.kbdrAddr
    · simp [h2, hr h2]
    · simp [h2]
  · rw [(memRead_not_readable hr).2.2] at h
    cases h

/-- A plain address reads as storage and changes nothing (20_memory.md R61). -/
theorem memRead_plain {a : Word} {s : State} (h : plainAddr a) : memRead a s = some (s.mem.read a, s) := by
  simp [memRead, h.1, h.2]

/-! Reads that may hold -/

theorem readThen_readable {a : Word} {rest : Rest} {k : Word → State → State} {s : State} (h : readable a s) :
    readThen a rest k s =
      k (wordAt a s) (if a = Config.kbdrAddr then s.takeChar else s) := by
  simp [readThen, memRead_readable h]

theorem readThen_not_readable {a : Word} {rest : Rest} {k : Word → State → State} {s : State} (h : ¬ readable a s) :
    readThen a rest k s = s.hold rest := by
  simp [readThen, (memRead_not_readable h).2.2]

/-- Everything a read that may hold can do: it holds with the latch empty, or goes on with the word of its address. -/
theorem readThen_cases (a : Word) (rest : Rest) (k : Word → State → State) (s : State) :
    s.kbFull = false ∧ readThen a rest k s = s.hold rest ∨
      readThen a rest k s = k (wordAt a s) s ∨
      s.kbFull = true ∧ readThen a rest k s = k (wordAt a s) s.takeChar := by
  by_cases h : readable a s
  · rw [readThen_readable h]
    by_cases h2 : a = Config.kbdrAddr
    · simp [h2, h h2]
    · simp [h2]
  · exact .inl ⟨(memRead_not_readable h).2.1, readThen_not_readable h⟩

theorem getThen_full {rest : Rest} {k : Byte → State → State} {s : State} (h : s.kbFull = true) :
    getThen rest k s = k s.kbChar s.takeChar := by
  simp [getThen, consoleGet_full h]

theorem getThen_empty {rest : Rest} {k : Byte → State → State} {s : State} (h : s.kbFull = false) :
    getThen rest k s = s.hold rest := by
  simp [getThen, consoleGet_empty h]

/-! The string routines -/

/-- A zero word ends the routine: nothing more is read or written (43_trap.md R204). -/
theorem stringLoop_zero {kind : StringKind} {fuel : Nat} {a : Word} {s : State} (ha : plainAddr a)
    (hw : s.mem.read a = 0) : stringLoop kind (fuel + 1) a s = s := by
  simp [stringLoop, stringHostTurn, ha.1, memRead_plain ha, hw]

/-- A non-zero word of plain storage gives its characters and the routine goes on at the next address. -/
theorem stringLoop_char {kind : StringKind} {fuel : Nat} {a : Word} {s : State} (ha : plainAddr a)
    (hw : s.mem.read a ≠ 0) :
    stringLoop kind (fuel + 1) a s = stringLoop kind fuel (a + 1) (consoleOut (stringChars kind (s.mem.read a)) s) := by
  simp only [stringLoop, stringHostTurn, ha.1, if_false, memRead_plain ha, hw]

/-- What the routines can do in one step, whatever the string: they write only the console output, the latch, the hold
state and where they go on, and take nothing back from the output. -/
theorem stringLoop_frame (kind : StringKind) (fuel : Nat) (a : Word) (s : State) :
    let t := stringLoop kind fuel a s
    t.regs = s.regs ∧ t.pc = s.pc ∧ t.cond = s.cond ∧ t.mem = s.mem ∧ t.run = s.run ∧ t.fault = s.fault ∧
      t.status = s.status ∧ t.freeCount = s.freeCount ∧ s.out <+: t.out := by
  induction fuel generalizing a s with
  | zero => simp [stringLoop]
  | succ fuel ih =>
    obtain ⟨h1, h2, h3, h4, h5, -, h7, h8, h9, h10, -⟩ := stringHostTurn_frame a s
    simp only [stringLoop]
    split
    · simp [h1, h2, h3, h4, h5, h7, h8, h9, h10]
    · next w s' hr =>
      have hs' := (memRead_cases hr).2
      have e : s'.regs = s.regs ∧ s'.pc = s.pc ∧ s'.cond = s.cond ∧ s'.mem = s.mem ∧ s'.run = s.run ∧
          s'.fault = s.fault ∧ s'.out = s.out ∧ s'.status = s.status ∧ s'.freeCount = s.freeCount := by
        rcases hs' with ⟨-, rfl⟩ | ⟨-, -, rfl⟩ <;> simp [h1, h2, h3, h4, h5, h7, h8, h9, h10]
      obtain ⟨e1, e2, e3, e4, e5, e6, e7, e8, e9⟩ := e
      split
      · simp [e1, e2, e3, e4, e5, e6, e7, e8, e9]
      · obtain ⟨i1, i2, i3, i4, i5, i6, i7, i8, i9⟩ := ih (a + 1) (consoleOut (stringChars kind w) s')
        refine ⟨by simpa [e1] using i1, by simpa [e2] using i2, by simpa [e3] using i3, by simpa [e4] using i4,
          by simpa [e5] using i5, by simpa [e6] using i6, by simpa [e8] using i7, by simpa [e9] using i8, ?_⟩
        refine List.IsPrefix.trans ?_ i9
        rw [consoleOut_out, e7]
        exact List.prefix_append _ _

/-- A string routine that waits does so with the latch empty. -/
theorem stringLoop_waits (kind : StringKind) (fuel : Nat) (a : Word) (s : State) (rest : Rest)
    (hw : (stringLoop kind fuel a s).wait = .input rest) (hs : ∀ r, s.wait ≠ .input r) :
    (stringLoop kind fuel a s).kbFull = false := by
  induction fuel generalizing a s with
  | zero => exact absurd hw (hs rest)
  | succ fuel ih =>
    simp only [stringLoop] at hw ⊢
    split
    · next hr =>
      by_cases h : readable a (stringHostTurn a s)
      · rw [memRead_readable h] at hr
        cases hr
      · exact (memRead_not_readable h).2.1
    · next w s' hr =>
      simp only [hr] at hw
      have hs' : ∀ r, s'.wait ≠ .input r := by
        intro r
        rcases (memRead_cases hr).2 with ⟨-, rfl⟩ | ⟨-, -, rfl⟩
        · rw [(stringHostTurn_frame a s).2.2.2.2.2.1]
          exact hs r
        · simp
      split
      · next h0 =>
        rw [if_pos h0] at hw
        exact absurd hw (hs' rest)
      · next h0 =>
        rw [if_neg h0] at hw
        exact ih _ _ hw (by simpa using hs')

/-- A string routine that waits has nothing left to go on with besides. -/
theorem stringLoop_one_in_progress (kind : StringKind) (fuel : Nat) (a : Word) (s : State) (hw : s.wait = .none)
    (hs : s.stringRest = none) :
    (stringLoop kind fuel a s).wait = .none ∨ (stringLoop kind fuel a s).stringRest = none := by
  induction fuel generalizing a s with
  | zero => exact .inl hw
  | succ fuel ih =>
    obtain ⟨-, -, -, -, -, h6, -, -, -, -, h11⟩ := stringHostTurn_frame a s
    simp only [stringLoop]
    split
    · exact .inr (h11.trans hs)
    · next w s' hr =>
      have e : s'.wait = .none ∧ s'.stringRest = none := by
        rcases (memRead_cases hr).2 with ⟨-, rfl⟩ | ⟨-, -, rfl⟩
        · exact ⟨h6.trans hw, h11.trans hs⟩
        · exact ⟨rfl, h11.trans hs⟩
      split
      · exact .inl e.1
      · exact ih _ _ e.1 e.2

end Sys2Proof.Machine
end

