-- ==== Sys2Proof/Laws/Meanings.lean ====
section
/-! SUPPORT. What the shared bodies of the meanings leave unchanged, whichever way they go: loads, stores through a pointer, the
trap routines, the trap dispatcher, and the fetch. -/

namespace Sys2Proof.Machine

/-- A load, whether it completes or holds, writes only its register, COND, the latch and the hold state. -/
theorem loadFrom_frame (a : Word) (dr : RegIdx) (s : State) :
    let t := loadFrom a dr s
    t.mem = s.mem ∧ t.pc = s.pc ∧ t.run = s.run ∧ t.fault = s.fault ∧ t.status = s.status ∧
      t.stringRest = s.stringRest ∧ t.out = s.out ∧ sameRegsBut [dr] s t := by
  simp only [loadFrom]
  rcases readThen_cases a (.load dr) (writeResult dr) s with ⟨-, h⟩ | h | ⟨-, h⟩ <;> rw [h] <;>
    simp +contextual [sameRegsBut]

/-- A load through a pointer writes what a load does. -/
theorem loadThrough_frame (a : Word) (dr : RegIdx) (s : State) :
    let t := loadThrough a dr s
    t.mem = s.mem ∧ t.pc = s.pc ∧ t.run = s.run ∧ t.fault = s.fault ∧ t.status = s.status ∧
      t.stringRest = s.stringRest ∧ t.out = s.out ∧ sameRegsBut [dr] s t := by
  simp only [loadThrough]
  rcases readThen_cases a (.ldiPointer dr) (fun p s' => loadFrom p dr s') s with ⟨-, h⟩ | h | ⟨-, h⟩ <;> rw [h]
  · simp [sameRegsBut]
  · exact loadFrom_frame _ _ _
  · exact loadFrom_frame _ _ s.takeChar

/-- A store through a pointer writes only memory, the latch and the hold state. -/
theorem storeThrough_frame (a : Word) (sr : RegIdx) (s : State) :
    let t := storeThrough a sr s
    t.regs = s.regs ∧ t.pc = s.pc ∧ t.cond = s.cond ∧ t.run = s.run ∧ t.fault = s.fault ∧ t.status = s.status ∧
      t.stringRest = s.stringRest ∧ t.out = s.out := by
  simp only [storeThrough]
  rcases readThen_cases a (.stiPointer sr) (fun p s' => memWrite p (s'.reg sr) s') s with ⟨-, h⟩ | h | ⟨-, h⟩ <;>
    rw [h] <;> simp

/-- GETC writes only R0, the latch and the hold state. -/
theorem routineGetc_frame (s : State) :
    let t := routineGetc s
    t.mem = s.mem ∧ t.pc = s.pc ∧ t.cond = s.cond ∧ t.run = s.run ∧ t.fault = s.fault ∧ t.status = s.status ∧
      t.stringRest = s.stringRest ∧ t.out = s.out ∧ sameRegsBut [0] s t := by
  simp only [routineGetc]
  cases h : s.kbFull
  · rw [getThen_empty h]; simp [sameRegsBut]
  · rw [getThen_full h]; simp +contextual [sameRegsBut]

/-- IN after its prompt writes only R0, the output by appending, the latch and the hold state. -/
theorem routineInAfterPrompt_frame (s : State) :
    let t := routineInAfterPrompt s
    t.mem = s.mem ∧ t.pc = s.pc ∧ t.cond = s.cond ∧ t.run = s.run ∧ t.fault = s.fault ∧ t.status = s.status ∧
      t.stringRest = s.stringRest ∧ s.out <+: t.out ∧ sameRegsBut [0] s t := by
  simp only [routineInAfterPrompt]
  cases h : s.kbFull
  · rw [getThen_empty h]; simp [sameRegsBut]
  · rw [getThen_full h]; simp +contextual [sameRegsBut]

theorem routineIn_frame (s : State) :
    let t := routineIn s
    t.mem = s.mem ∧ t.pc = s.pc ∧ t.cond = s.cond ∧ t.run = s.run ∧ t.fault = s.fault ∧ t.status = s.status ∧
      t.stringRest = s.stringRest ∧ s.out <+: t.out ∧ sameRegsBut [0] s t := by
  obtain ⟨h1, h2, h3, h4, h5, h6, h7, h8, h9⟩ := routineInAfterPrompt_frame (consoleOut Config.inPrompt s)
  exact ⟨h1, h2, h3, h4, h5, h6, h7, List.IsPrefix.trans (by simp) h8, h9⟩

/-- An unknown vector raises its fault (43_trap.md R208). -/
theorem dispatchTrap_unknown {v : Byte} (h : isDefinedVector v = false) (s : State) :
    dispatchTrap v s = raise (.unknownTrapVector v) s := by
  simp only [isDefinedVector, Bool.or_eq_false_iff, beq_eq_false_iff_ne] at h
  simp [dispatchTrap, h]

/-- The six routines by their vectors (30_encoding.md R109). -/
theorem dispatchTrap_defined {v : Byte} (h : isDefinedVector v = true) (s : State) :
    v = Config.vecGetc ∧ dispatchTrap v s = routineGetc s ∨ v = Config.vecOut ∧ dispatchTrap v s = routineOut s ∨
      v = Config.vecPuts ∧ dispatchTrap v s = routinePuts s ∨ v = Config.vecIn ∧ dispatchTrap v s = routineIn s ∨
      v = Config.vecPutsp ∧ dispatchTrap v s = routinePutsp s ∨ v = Config.vecHalt ∧ dispatchTrap v s = haltRun s := by
  simp only [isDefinedVector, Bool.or_eq_true, beq_iff_eq] at h
  rcases h with ((((rfl | rfl) | rfl) | rfl) | rfl) | rfl <;>
    simp [dispatchTrap, Config.vecGetc, Config.vecOut, Config.vecPuts, Config.vecIn, Config.vecPutsp, Config.vecHalt]

/-- Everything a fetch that completes can do: past the word, and at KBDR the character is taken. -/
theorem fetch_cases {s s' : State} {w : Word} (h : fetch s = some (w, s')) :
    w = wordAt s.pc s ∧ (s' = s.setPc (s.pc + 1) ∨ s.kbFull = true ∧ s' = s.takeChar.setPc (s.pc + 1)) := by
  simp only [fetch, Option.map_eq_some_iff, Prod.mk.injEq] at h
  obtain ⟨⟨v, u⟩, h1, rfl, rfl⟩ := h
  obtain ⟨hv, ⟨-, rfl⟩ | ⟨-, hf, rfl⟩⟩ := memRead_cases h1
  · exact ⟨hv, .inl rfl⟩
  · exact ⟨hv, .inr ⟨hf, rfl⟩⟩

/-- A running machine's step: the host's turn, then what the engine does. -/
theorem step_running {s : State} (h : s.run = .running) : step s = advance (hostTurn s) := by
  simp [step, cycle, h]

end Sys2Proof.Machine
end

