-- ==== Sys2Proof/Laws/PerInstr.lean ====
section
/-! SUPPORT. Statements made of every instruction as syntax, one lemma for each constructor: the opcode of its canonical word. -/

namespace Sys2Proof.Laws

/-- The opcode of an instruction (30_encoding.md R101). -/
def opcodeOf : Instr → BitVec 4
  | .br _ _ _ _ => 0x0
  | .addR _ _ _ | .addI _ _ _ => 0x1
  | .ld _ _ => 0x2
  | .st _ _ => 0x3
  | .jsr _ | .jsrr _ => 0x4
  | .andR _ _ _ | .andI _ _ _ => 0x5
  | .ldr _ _ _ => 0x6
  | .str _ _ _ => 0x7
  | .rti => 0x8
  | .not _ _ => 0x9
  | .ldi _ _ => 0xA
  | .sti _ _ => 0xB
  | .jmp _ | .ret => 0xC
  | .reserved => 0xD
  | .lea _ _ => 0xE
  | .trap _ | .getc | .out | .puts | .input | .putsp | .halt => 0xF

namespace CanonicalOpcode

/-- Bits 15..12 of the canonical word are the instruction's opcode. -/
def Statement (i : Instr) : Prop :=
  bits (encode i) 12 4 = opcodeOf i

theorem addR (dr : RegIdx) (sr1 : RegIdx) (sr2 : RegIdx) : Statement (.addR dr sr1 sr2) := by
  simp [Statement, encode, opcodeOf, bits_or, bits_place_same, bits_place_disjoint]

theorem addI (dr : RegIdx) (sr1 : RegIdx) (imm5 : BitVec 5) : Statement (.addI dr sr1 imm5) := by
  simp [Statement, encode, opcodeOf, bits_or, bits_place_same, bits_place_disjoint]

theorem andR (dr : RegIdx) (sr1 : RegIdx) (sr2 : RegIdx) : Statement (.andR dr sr1 sr2) := by
  simp [Statement, encode, opcodeOf, bits_or, bits_place_same, bits_place_disjoint]

theorem andI (dr : RegIdx) (sr1 : RegIdx) (imm5 : BitVec 5) : Statement (.andI dr sr1 imm5) := by
  simp [Statement, encode, opcodeOf, bits_or, bits_place_same, bits_place_disjoint]

theorem not (dr : RegIdx) (sr : RegIdx) : Statement (.not dr sr) := by
  simp [Statement, encode, opcodeOf, bits_or, bits_place_same, bits_place_disjoint]

theorem br (n : Bool) (z : Bool) (p : Bool) (off9 : BitVec 9) : Statement (.br n z p off9) := by
  simp [Statement, encode, opcodeOf, bits_or, bits_place_same, bits_place_disjoint]

theorem jmp (baseR : RegIdx) : Statement (.jmp baseR) := by
  simp [Statement, encode, opcodeOf, bits_or, bits_place_same, bits_place_disjoint]

theorem ret : Statement .ret := by
  rfl

theorem jsr (off11 : BitVec 11) : Statement (.jsr off11) := by
  simp [Statement, encode, opcodeOf, bits_or, bits_place_same, bits_place_disjoint]

theorem jsrr (baseR : RegIdx) : Statement (.jsrr baseR) := by
  simp [Statement, encode, opcodeOf, bits_or, bits_place_same, bits_place_disjoint]

theorem ld (dr : RegIdx) (off9 : BitVec 9) : Statement (.ld dr off9) := by
  simp [Statement, encode, opcodeOf, bits_or, bits_place_same, bits_place_disjoint]

theorem ldi (dr : RegIdx) (off9 : BitVec 9) : Statement (.ldi dr off9) := by
  simp [Statement, encode, opcodeOf, bits_or, bits_place_same, bits_place_disjoint]

theorem ldr (dr : RegIdx) (baseR : RegIdx) (off6 : BitVec 6) : Statement (.ldr dr baseR off6) := by
  simp [Statement, encode, opcodeOf, bits_or, bits_place_same, bits_place_disjoint]

theorem lea (dr : RegIdx) (off9 : BitVec 9) : Statement (.lea dr off9) := by
  simp [Statement, encode, opcodeOf, bits_or, bits_place_same, bits_place_disjoint]

theorem st (sr : RegIdx) (off9 : BitVec 9) : Statement (.st sr off9) := by
  simp [Statement, encode, opcodeOf, bits_or, bits_place_same, bits_place_disjoint]

theorem sti (sr : RegIdx) (off9 : BitVec 9) : Statement (.sti sr off9) := by
  simp [Statement, encode, opcodeOf, bits_or, bits_place_same, bits_place_disjoint]

theorem str (sr : RegIdx) (baseR : RegIdx) (off6 : BitVec 6) : Statement (.str sr baseR off6) := by
  simp [Statement, encode, opcodeOf, bits_or, bits_place_same, bits_place_disjoint]

theorem trap (v : Byte) : Statement (.trap v) := by
  simp [Statement, encode, encodeTrap, opcodeOf, bits_or, bits_place_same, bits_place_disjoint]

theorem getc : Statement .getc := by
  rfl

theorem out : Statement .out := by
  rfl

theorem puts : Statement .puts := by
  rfl

theorem input : Statement .input := by
  rfl

theorem putsp : Statement .putsp := by
  rfl

theorem halt : Statement .halt := by
  rfl

theorem rti : Statement .rti := by
  rfl

theorem reserved : Statement .reserved := by
  rfl

end CanonicalOpcode

end Sys2Proof.Laws
end

