-- ==== Sys2Proof/Tests/Slice0.lean ====
section
/-! SUPPORT. Tests with expected values from spec/95_test_vectors.md and the rules' own examples, and a witness for the
hypotheses of each statement. -/

namespace Sys2Proof.Tests

open Sys2Proof Sys2Proof.Machine

/-! Helpers -/

/-- The outcome is a next state of which `f` holds. -/
def nextIs (o : Host.Outcome State Fault Refusal) (f : State → Bool) : Bool :=
  match o with
  | .next s => f s
  | .fault _ => false
  | .refused _ => false

/-- The reset state with `pc` and some registers and words set. -/
def start (pc : Word) (regs : List (RegIdx × Word)) (words : List (Word × Word)) : State :=
  { regs.foldl (fun s r => s.setReg r.1 r.2) State.reset with pc := pc, mem := Memory.ofCells words }

/-- One step from `start` with the instruction word `w` at `pc`. -/
def stepAt (pc w : Word) (regs : List (RegIdx × Word)) (words : List (Word × Word)) :
    Host.Outcome State Fault Refusal :=
  step ((start pc regs words).withFetchWord 16 w.toNat)

/-- `s` with character `c` pending. -/
def pending (c : Byte) (s : State) : State :=
  { s with kbFull := true, kbChar := c }

/-! Well-formedness refuses an ill-formed term of each check -/

theorem test_wf_refuses_jmp_r7 : (Instr.jmp 7).wellFormed = false := by decide
theorem test_wf_refuses_trap_to_a_routine :
    (Instr.trap 0x20).wellFormed = false ∧ (Instr.trap 0x21).wellFormed = false ∧ (Instr.trap 0x22).wellFormed = false ∧
      (Instr.trap 0x23).wellFormed = false ∧ (Instr.trap 0x24).wellFormed = false ∧
      (Instr.trap 0x25).wellFormed = false := by decide
theorem test_wf_accepts_the_neighbours :
    (Instr.jmp 6).wellFormed = true ∧ (Instr.trap 0x1F).wellFormed = true ∧ (Instr.trap 0x26).wellFormed = true := by
  decide

/-! Decoding: a word written out for every constructor (30_encoding.md R101, R102; 95_test_vectors.md) -/

theorem test_decode_operate :
    decode 0b0001_000_001_0_00_010 = .addR 0 1 2 ∧ decode 0b0001_000_001_1_11101 = .addI 0 1 0b11101 ∧
      decode 0b0101_011_100_0_00_101 = .andR 3 4 5 ∧ decode 0b0101_010_010_1_00000 = .andI 2 2 0 ∧
      decode 0b1001_001_010_111111 = .not 1 2 := by decide
theorem test_decode_control :
    decode 0b0000_1_0_1_000000101 = .br true false true 5 ∧ decode 0b1100_000_010_000000 = .jmp 2 ∧
      decode 0b1100_000_111_000000 = .ret ∧ decode 0b0100_1_00000010000 = .jsr 16 ∧
      decode 0b0100_0_00_011_000000 = .jsrr 3 := by decide
theorem test_decode_load_store :
    decode 0b0010_001_000000101 = .ld 1 5 ∧ decode 0b1010_000_000000001 = .ldi 0 1 ∧
      decode 0b0110_100_010_111111 = .ldr 4 2 0b111111 ∧ decode 0b1110_000_000000100 = .lea 0 4 ∧
      decode 0b0011_000_000000010 = .st 0 2 ∧ decode 0b1011_000_000000101 = .sti 0 5 ∧
      decode 0b0111_000_010_000001 = .str 0 2 1 := by decide
theorem test_decode_trap :
    decode 0xF020 = .getc ∧ decode 0xF021 = .out ∧ decode 0xF022 = .puts ∧ decode 0xF023 = .input ∧
      decode 0xF024 = .putsp ∧ decode 0xF025 = .halt ∧ decode 0xF0FF = .trap 0xFF ∧ decode 0xF01F = .trap 0x1F ∧
      decode 0xF026 = .trap 0x26 := by decide
theorem test_decode_illegal :
    decode 0x8000 = .rti ∧ decode 0x8FFF = .rti ∧ decode 0xD000 = .reserved ∧ decode 0xDFFF = .reserved := by decide
/-- V3, V15, V25, V62: ignored bits. -/
theorem test_decode_ignored_bits :
    decode 0x105A = .addR 0 1 2 ∧ decode 0x9000 = .not 0 0 ∧ decode 0xCE80 = .jmp 2 ∧ decode 0xFF25 = .halt ∧
      decode 0xCFFF = .ret ∧ decode 0b0100_0_11_011_111111 = .jsrr 3 := by decide
/-- R112 and the examples of 40 to 43. -/
theorem test_encode_canonical_words :
    encode .ret = 0xC1C0 ∧ encode .halt = 0xF025 ∧ encode (.not 1 2) = 0x92BF ∧ encode (.addI 0 1 0b11101) = 0x107D ∧
      encode (.br false false false 0) = 0x0000 ∧ encode (.jsr 16) = 0x4810 ∧ encode (.str 0 2 1) = 0x7081 := by decide
theorem test_decode_table_word :
    decodeTableWord 16 0x1042 = some (.addR 0 1 2) ∧ decodeTableWord 16 0x10000 = none := by decide

/-! One step of each instruction -/

/-- S3. -/
theorem test_add_register_wraps :
    nextIs (stepAt 0x3000 0x1042 [(1, 0x7FFF), (2, 1)] []) (fun s => s.reg 0 == 0x8000 && s.cond == .n && s.pc == 0x3001) := by
  decide
/-- V2: sources and destination the same. -/
theorem test_add_register_in_place :
    nextIs (stepAt 0x3000 0x1241 [(1, 0x4000)] []) (fun s => s.reg 1 == 0x8000 && s.cond == .n) := by decide
/-- V4: the most negative immediate. -/
theorem test_add_immediate :
    nextIs (stepAt 0x3000 0x1070 [(1, 0x0010)] []) (fun s => s.reg 0 == 0 && s.cond == .z) := by decide
/-- V7. -/
theorem test_and_register :
    nextIs (stepAt 0x3000 0x5705 [(4, 0xF0F0), (5, 0x0FF0)] []) (fun s => s.reg 3 == 0x00F0 && s.cond == .p) := by decide
/-- V9: the immediate is sign-extended. -/
theorem test_and_immediate :
    nextIs (stepAt 0x3000 0x5070 [(1, 0x1234)] []) (fun s => s.reg 0 == 0x1230 && s.cond == .p) := by decide
/-- V12. -/
theorem test_not :
    nextIs (stepAt 0x3000 0x92BF [(2, 0x00FF)] []) (fun s => s.reg 1 == 0xFF00 && s.cond == .n) := by decide
/-- S5: COND is Z after reset, so BRnp is not taken. -/
theorem test_br_not_taken : nextIs (stepAt 0x3000 0x0A05 [] []) (fun s => s.pc == 0x3001 && s.cond == .z) := by decide
/-- V21: the target wraps below 0. -/
theorem test_br_wraps : nextIs (stepAt 0x0000 0x0FFE [] []) (fun s => s.pc == 0xFFFF) := by decide
/-- V24. -/
theorem test_jmp : nextIs (stepAt 0x3000 0xC080 [(2, 0x4000)] []) (fun s => s.pc == 0x4000) := by decide
/-- V26. -/
theorem test_ret : nextIs (stepAt 0x3010 0xC1C0 [(7, 0x3001)] []) (fun s => s.pc == 0x3001) := by decide
/-- V28. -/
theorem test_jsr : nextIs (stepAt 0x3000 0x4C00 [] []) (fun s => s.reg 7 == 0x3001 && s.pc == 0x2C01) := by decide
/-- V30. -/
theorem test_jsrr : nextIs (stepAt 0x3000 0x40C0 [(3, 0x5000)] []) (fun s => s.reg 7 == 0x3001 && s.pc == 0x5000) := by
  decide
/-- V31: R7 is written first. -/
theorem test_jsrr_r7 : nextIs (stepAt 0x3000 0x41C0 [(7, 0x5000)] []) (fun s => s.reg 7 == 0x3001 && s.pc == 0x3001) := by
  decide
/-- V33: it loads its own word. -/
theorem test_ld_own_word : nextIs (stepAt 0x3000 0x21FF [] []) (fun s => s.reg 0 == 0x21FF && s.cond == .p) := by decide
/-- S4 as 90_conflicts.md C6 reads it. -/
theorem test_ldi :
    nextIs (stepAt 0x0062 0xA001 [] [(0x0064, 0x00C8), (0x00C8, 0x1234)])
      (fun s => s.reg 0 == 0x1234 && s.cond == .p && s.pc == 0x0063) := by decide
/-- V38: KBDR through a pointer takes the character. -/
theorem test_ldi_kbdr :
    nextIs (step (pending 0x41 ((start 0x3000 [] [(0x3003, 0xFE02)]).withFetchWord 16 0xA002)))
      (fun s => s.reg 0 == 0x0041 && s.cond == .p && !s.kbFull) := by decide
/-- V41: the address wraps, base and destination are the same. -/
theorem test_ldr_wraps :
    nextIs (stepAt 0x3000 0x6241 [(1, 0xFFFF)] [(0x0000, 0x1234)]) (fun s => s.reg 1 == 0x1234 && s.cond == .p) := by
  decide
/-- V44: LEA sets COND. -/
theorem test_lea : nextIs (stepAt 0x7FFF 0xE000 [] []) (fun s => s.reg 0 == 0x8000 && s.cond == .n) := by decide
/-- V47. -/
theorem test_st :
    nextIs (stepAt 0x3005 0x3002 [(0, 0x000F)] []) (fun s => s.mem.read 0x3008 == 0x000F && s.cond == .z) := by decide
/-- V48. -/
theorem test_sti :
    nextIs (stepAt 0x3004 0xB005 [(0, 0x000E)] [(0x300A, 0x4000)]) (fun s => s.mem.read 0x4000 == 0x000E) := by decide
/-- V50: the stored value is the base. -/
theorem test_str : nextIs (stepAt 0x3000 0x7240 [(1, 0x4000)] []) (fun s => s.mem.read 0x4000 == 0x4000) := by decide
/-- V51, first half: a store to KBSR reaches the backing cell and leaves the latch empty. -/
theorem test_str_kbsr :
    nextIs (stepAt 0x3000 0x7040 [(0, 0x1234), (1, 0xFE00)] [])
      (fun s => s.mem.read 0xFE00 == 0x1234 && !s.kbFull && memRead 0xFE00 s == some (0, s)) := by decide
/-- V54: a pending character is taken. -/
theorem test_getc :
    nextIs (step (pending 0x61 ((start 0x3000 [] []).withFetchWord 16 0xF020)))
      (fun s => s.reg 0 == 0x0061 && s.reg 7 == 0x3001 && !s.kbFull && s.out == []) := by decide
/-- V53 before the delivery: it holds with R7 written. -/
theorem test_getc_holds :
    nextIs (stepAt 0x3000 0xF020 [] []) (fun s => s.reg 7 == 0x3001 && s.wait == .input .getc && s.run == .running) := by
  decide
/-- V52: the low character only. -/
theorem test_out : nextIs (stepAt 0x3003 0xF021 [(0, 0x1241)] []) (fun s => s.out == [0x41] && s.reg 7 == 0x3004) := by
  decide
/-- V56: a word whose low byte is zero is no terminator. -/
theorem test_puts_not_a_terminator :
    nextIs (stepAt 0x3000 0xF022 [(0, 0x4000)] [(0x4000, 0x0100)]) (fun s => s.out == [0x00]) := by decide
/-- V58: the address wraps. -/
theorem test_puts_wraps : nextIs (stepAt 0x3000 0xF022 [(0, 0xFFFF)] [(0xFFFF, 0x0041)]) (fun s => s.out == [0x41]) := by
  decide
/-- V55 once a character is there: R0, and the output up to the open prompt text. -/
theorem test_in : nextIs (step (pending 0x6B ((start 0x3000 [] []).withFetchWord 16 0xF023)))
    (fun s => s.reg 0 == 0x006B && s.reg 7 == 0x3001 && !s.kbFull) := by decide
theorem test_in_output (s : State) (h : s.kbFull = true) :
    (routineIn s).out = s.out ++ Config.inPrompt ++ [s.kbChar] := by
  simp [routineIn, routineInAfterPrompt, getThen, consoleGet, consoleOut, State.takeChar, State.setReg, h]
/-- V59. -/
theorem test_putsp :
    nextIs (stepAt 0x3000 0xF024 [(0, 0x4000)] [(0x4000, 0x4948), (0x4001, 0x0021)])
      (fun s => s.out == [0x48, 0x49, 0x21]) := by decide
/-- V60: a zero low byte is written. -/
theorem test_putsp_zero_low_byte :
    nextIs (stepAt 0x3000 0xF024 [(0, 0x4000)] [(0x4000, 0x2100)]) (fun s => s.out == [0x00, 0x21]) := by decide
/-- V61. -/
theorem test_halt :
    nextIs (stepAt 0x3006 0xF025 [] [])
      (fun s => s.run == .halted && s.reg 7 == 0x3007 && s.pc == 0x3007 && s.out == [] && s.status.length == 1) := by decide
/-- V63, V66. -/
theorem test_unknown_vectors :
    nextIs (stepAt 0x3000 0xF0FF [] [])
        (fun s => s.run == .faulted && s.fault == some { cause := .unknownTrapVector 0xFF, pcFault := 0x3000 }) ∧
      nextIs (stepAt 0x3000 0xF01F [] [])
        (fun s => s.fault == some { cause := .unknownTrapVector 0x1F, pcFault := 0x3000 }) := by decide
/-- V68. -/
theorem test_rti :
    nextIs (stepAt 0x3000 0x8FFF [] [])
      (fun s => s.run == .faulted && s.fault == some { cause := .illegalOpcode 0x8, pcFault := 0x3000 }) := by decide
/-- R231's example. -/
theorem test_reserved :
    nextIs (stepAt 0x4000 0xDFFF [] [])
      (fun s => s.run == .faulted && s.fault == some { cause := .illegalOpcode 0xD, pcFault := 0x4000 }) := by decide
/-- R240. -/
theorem test_fault_codes :
    (Cause.imageLoadError 0).code = 1 ∧ (Cause.illegalOpcode 8).code = 2 ∧ (Cause.unknownTrapVector 0).code = 3 := by decide

/-! The keyboard and the host -/

/-- V72, V73. -/
theorem test_keyboard_registers :
    memRead 0xFE00 (pending 0x41 State.reset) = some (0x8000, pending 0x41 State.reset) ∧
      (memRead 0xFE02 (pending 0x41 State.reset)).map (fun r => (r.1, r.2.kbFull)) = some (0x0041, false) := by decide
/-- V74: plain storage between the two registers. -/
theorem test_between_the_registers : (memRead 0xFE01 (start 0 [] [(0xFE01, 0x5555)])).map (·.1) = some 0x5555 := by decide
/-- V53, V39: the delivery completes the instruction. -/
theorem test_held_getc_completes :
    nextIs (step { State.reset with wait := .input .getc, hostInput := [some 0x78] })
      (fun s => s.reg 0 == 0x0078 && s.wait == .none && !s.kbFull && s.hostInput == []) := by decide
theorem test_held_load_completes :
    nextIs (step { State.reset with wait := .input (.load 3), hostInput := [none] }) (fun s => s.wait == .input (.load 3)) ∧
      nextIs (step { State.reset with wait := .input (.load 3), hostInput := [some 0x80] })
        (fun s => s.reg 3 == 0x0080 && s.cond == .p && s.wait == .none) := by decide
/-- R274: a fetch at KBDR executes the character, which is a BR that is never taken. -/
theorem test_fetch_at_kbdr :
    nextIs (step (pending 0x25 { State.reset with pc := 0xFE02 })) (fun s => s.pc == 0xFE03 && !s.kbFull) := by decide
/-- R204: a string that runs into KBDR waits with its first character written, and goes on with the host's character. -/
theorem test_string_waits_at_kbdr :
    nextIs (stepAt 0x3000 0xF022 [(0, 0xFE01)] [(0xFE01, 0x0041)])
        (fun s => s.out == [0x41] && s.wait == .input (.string .puts 0xFE02)) ∧
      nextIs (step { State.reset with wait := .input (.string .puts 0xFE02), hostInput := [some 0x42] })
        (fun s => s.out == [0x42] && s.wait == .none && s.run == .running) := by decide
/-- A full latch keeps its character and the offer stays first in line (R67). -/
theorem test_full_latch_keeps_its_character :
    hostTurn { pending 0x41 State.reset with hostInput := [some 0x42] } =
      { pending 0x41 State.reset with hostInput := [some 0x42] } := by decide
/-- A string routine that has read its words goes on where it stopped. -/
theorem test_string_goes_on :
    nextIs (step { start 0x3001 [] [(0x4000, 0x0041)] with stringRest := some (.puts, 0x4000) })
      (fun s => s.out == [0x41] && s.wait == .none && s.stringRest == none && s.pc == 0x3001) := by decide

/-! Memory and the loader -/

/-- Writing the reset value removes the cell, and cells rise. -/
theorem test_memory_canonical :
    Memory.ofCells [(5, 1), (3, 2), (5, 0)] = [(3, 2)] ∧ Memory.ofCells [(5, 1), (3, 2)] = [(3, 2), (5, 1)] := by decide
/-- L1 to L4, L8: what an image leaves in memory. -/
theorem test_load_image :
    loadImage (some [0x30, 0x00, 0xF0, 0x25]) [] = some [(0x3000, 0xF025)] ∧
      loadImage (some [0xFF, 0xFF, 0x12, 0x34, 0x56, 0x78]) [] = some [(0xFFFF, 0x1234)] ∧
      loadImage (some [0x30, 0x00, 0x12]) [] = some [] ∧ loadImage (some [0x30, 0x00]) [] = some [] ∧
      loadImage (some [0xFE, 0x00, 0x12, 0x34]) [] = some [(0xFE00, 0x1234)] := by decide
/-- L5, L6: failures. -/
theorem test_load_fails : loadImage (some [0x30]) [] = none ∧ loadImage (some []) [] = none ∧ loadImage none [] = none := by
  decide
/-- L7: a later image overwrites, and L9: loading does not set `pc`. -/
theorem test_boot :
    nextIs (boot [some [0x30, 0, 0x11, 0x11, 0x22, 0x22], some [0x30, 1, 0x33, 0x33]] [])
      (fun s => s.mem == [(0x3000, 0x1111), (0x3001, 0x3333)] && s.pc == 0x3000 && s.run == .running) := by decide
theorem test_boot_reports_the_failing_image :
    boot [some [0x30, 0], some [0x30]] [] = .fault (.imageLoadError 1) := rfl

/-! Witnesses: concrete inputs that meet the hypotheses of each statement -/

theorem witness_SignExtension : 1 ≤ 5 ∧ 5 ≤ 16 ∧ 4 < 16 ∧ 15 < 16 := by decide
/-- A word for the mask of every row of the opcode table. -/
theorem witness_row_masks :
    (0x1042 : Word) &&& 0xF020 = 0x1000 ∧ (0x107D : Word) &&& 0xF020 = 0x1020 ∧ (0x5705 : Word) &&& 0xF020 = 0x5000 ∧
      (0x54A0 : Word) &&& 0xF020 = 0x5020 ∧ (0x92BF : Word) &&& 0xF000 = 0x9000 ∧ (0x0A05 : Word) &&& 0xF000 = 0x0000 ∧
      ((0xC080 : Word) &&& 0xF000 = 0xC000 ∧ bits 0xC080 6 3 ≠ 7) ∧ (0xC1C0 : Word) &&& 0xF1C0 = 0xC1C0 ∧
      (0x4810 : Word) &&& 0xF800 = 0x4800 ∧ (0x40C0 : Word) &&& 0xF800 = 0x4000 ∧ (0x2205 : Word) &&& 0xF000 = 0x2000 ∧
      (0xA001 : Word) &&& 0xF000 = 0xA000 ∧ (0x68BF : Word) &&& 0xF000 = 0x6000 ∧ (0xE004 : Word) &&& 0xF000 = 0xE000 ∧
      (0x3002 : Word) &&& 0xF000 = 0x3000 ∧ (0xB005 : Word) &&& 0xF000 = 0xB000 ∧ (0x7081 : Word) &&& 0xF000 = 0x7000 ∧
      (0xFF25 : Word) &&& 0xF0FF = 0xF025 ∧ (0xF020 : Word) &&& 0xF0FF = 0xF020 ∧ (0xF021 : Word) &&& 0xF0FF = 0xF021 ∧
      (0xF022 : Word) &&& 0xF0FF = 0xF022 ∧ (0xF023 : Word) &&& 0xF0FF = 0xF023 ∧ (0xF024 : Word) &&& 0xF0FF = 0xF024 ∧
      (0x8FFF : Word) &&& 0xF000 = 0x8000 ∧ (0xDFFF : Word) &&& 0xF000 = 0xD000 := by decide
theorem witness_BranchTaken_and_not :
    (true = true ∧ State.reset.cond = .z) ∧ ¬ (true = true ∧ State.reset.cond = .n ∨ false = true ∧ State.reset.cond = .z ∨
      true = true ∧ State.reset.cond = .p) := by decide
/-- LD, LDR, STI: plain storage, KBSR, KBDR with a character, and KBDR without. -/
theorem witness_Readable :
    readable 0xFE01 State.reset ∧ readable 0xFE00 State.reset ∧ readable 0xFE02 (pending 0x41 State.reset) ∧
      ¬ readable 0xFE02 State.reset ∧ pcRelative (1 : BitVec 9) { State.reset with pc := 0xFE01 } = 0xFE02 ∧
      basePlusOffset 0 (0b111111 : BitVec 6) (State.reset.setReg 0 0xFE03) = 0xFE02 := by decide
/-- LDI: pointer and data readable, the pointer not readable, the data not readable. -/
theorem witness_Ldi :
    (let s := start 0x3000 [] [(0x3001, 0xFE00)];
      readable (pcRelative (1 : BitVec 9) s) s ∧ readable (wordAt (pcRelative (1 : BitVec 9) s) s) s) ∧
    (let s := start 0xFE01 [] [];
      ¬ readable (pcRelative (1 : BitVec 9) s) s) ∧
    (let s := start 0x3000 [] [(0x3001, 0xFE02)];
      readable (pcRelative (1 : BitVec 9) s) s ∧ ¬ readable (wordAt (pcRelative (1 : BitVec 9) s) s) s) := by decide
theorem witness_Stores : Memory.wf (start 0x3000 [] [(0x4000, 1), (0xFFFF, 2)]).mem := by decide
theorem witness_UnknownTrapVector :
    ((0x1F : Byte) < 0x20 ∨ (0x25 : Byte) < 0x1F) ∧ ((0x26 : Byte) < 0x20 ∨ (0x25 : Byte) < 0x26) ∧
      (0xF01F : Word) &&& 0xF000 = 0xF000 ∧ bits 0xF01F 0 8 = 0x1F := by decide
theorem witness_latch_full_and_empty : (pending 0x61 State.reset).kbFull = true ∧ State.reset.kbFull = false := by decide
/-- PUTS and PUTSP, a string "HI" of plain storage with its zero word. -/
theorem witness_String_plain :
    let s := start 0x3000 [(0, 0x4000)] [(0x4000, 0x0048), (0x4001, 0x0049)]
    let ws : List Word := [0x0048, 0x0049];
    (∀ i : Fin 2, plainAddr (s.reg 0 + BitVec.ofNat 16 i) ∧ s.mem.read (s.reg 0 + BitVec.ofNat 16 i) = ws[i] ∧ ws[i] ≠ 0) ∧
      plainAddr (s.reg 0 + BitVec.ofNat 16 ws.length) ∧ s.mem.read (s.reg 0 + BitVec.ofNat 16 ws.length) = 0 := by decide
/-- PUTS and PUTSP, a string that runs into KBDR with the latch empty. -/
theorem witness_String_kbdr :
    let s := start 0x3000 [(0, 0xFE01)] [(0xFE01, 0x0041)]
    let ws : List Word := [0x0041];
    (∀ i : Fin 1, plainAddr (s.reg 0 + BitVec.ofNat 16 i) ∧ s.mem.read (s.reg 0 + BitVec.ofNat 16 i) = ws[i] ∧ ws[i] ≠ 0) ∧
      s.reg 0 + BitVec.ofNat 16 ws.length = Config.kbdrAddr ∧ s.kbFull = false := by decide
/-- StringRoutinesReadWordByWord: a word that waits, one that ends, one that goes on. -/
theorem witness_StringRoutines :
    ¬ readable 0xFE02 State.reset ∧ (readable 0xFE00 (hostTurn State.reset) ∧ wordAt 0xFE00 (hostTurn State.reset) = 0) ∧
      (readable 0xFE02 (pending 0x41 State.reset) ∧ wordAt 0xFE02 (pending 0x41 State.reset) ≠ 0) ∧
      { State.reset with stringRest := some (.puts, 0x4000) }.run = .running ∧
      { State.reset with stringRest := some (.puts, 0x4000) }.wait = .none := by decide
theorem witness_MemRead : (0xFE01 : Word) ≠ 0xFE00 ∧ (0xFE01 : Word) ≠ 0xFE02 := by decide
theorem witness_MemWrite : Memory.wf (start 0 [] [(0xFE00, 5)]).mem ∧ (0xFE02 : Word) ≠ 0xFE00 := by decide
theorem witness_StoreIsSeen : Memory.wf State.reset.mem ∧ plainAddr 0x3000 ∧ State.reset.pc = 0x3000 := by decide
theorem witness_HostFills :
    (pending 0x41 State.reset).kbFull = true ∧
      ({ State.reset with hostInput := [some 0x41, none] }.kbFull = false ∧
        { State.reset with hostInput := [some 0x41, none] }.hostInput = some 0x41 :: [none]) ∧
      { State.reset with hostInput := [none] }.hostInput = none :: [] ∧ State.reset.hostInput = [] := by decide
/-- StepRunsTheDecodedInstruction: plain storage, KBSR, KBDR with and without a character. -/
theorem witness_StepRuns :
    (State.reset.run = .running ∧ State.reset.wait = .none ∧ State.reset.stringRest = none ∧ plainAddr (hostTurn State.reset).pc) ∧
      (hostTurn { State.reset with pc := 0xFE00 }).pc = 0xFE00 ∧
      ((hostTurn { State.reset with pc := 0xFE02, hostInput := [some 0x41] }).pc = 0xFE02 ∧
        (hostTurn { State.reset with pc := 0xFE02, hostInput := [some 0x41] }).kbFull = true) ∧
      ((hostTurn { State.reset with pc := 0xFE02 }).pc = 0xFE02 ∧
        (hostTurn { State.reset with pc := 0xFE02 }).kbFull = false) := by decide
/-- The holds of LDI, STI, GETC and IN as `resumesWith` takes them. -/
theorem witness_resumes :
    ∀ rest ∈ [Rest.load 3, .ldiPointer 3, .stiPointer 3, .getc, .input],
      (State.reset.hold rest).run = .running ∧ (State.reset.hold rest).kbFull = false := by decide
/-- HeldFetchesAndStringsGoOn: a fetch and a string that wait at KBDR. -/
theorem witness_Held :
    (let s : State := { State.reset with pc := 0xFE02, wait := .input .fetch, hostInput := [some 0x25] };
      s.run = .running ∧ s.kbFull = false ∧ s.hostInput = some 0x25 :: [] ∧ s.wait = .input .fetch ∧ s.pc = 0xFE02) ∧
    (let s : State := { State.reset with wait := .input (.string .puts 0xFE02), hostInput := [some 0x41] };
      s.run = .running ∧ s.kbFull = false ∧ s.hostInput = some 0x41 :: [] ∧ s.wait = .input (.string .puts 0xFE02)) := by
  decide
theorem witness_Waiting :
    let s : State := { State.reset with wait := .input .getc }
    (s.run = .running ∧ s.wait = .input .getc ∧ s.kbFull = false ∧ s.hostInput = []) ∧
      { s with hostInput := [none] }.hostInput = none :: [] := by decide
theorem witness_EndedRuns :
    { State.reset with run := .halted }.run = .halted ∧ { State.reset with run := .faulted }.run = .faulted := by decide
/-- OnlyHaltAndFaultsEndARun: HALT, a fault and a plain instruction, each with its next state. -/
theorem witness_OnlyHaltAndFaults :
    State.reset.run = .running ∧ (∃ t, exec .halt State.reset = .next t) ∧ (∃ t, exec .rti State.reset = .next t) ∧
      ∃ t, exec (.jmp 2) State.reset = .next t :=
  ⟨rfl, ⟨_, rfl⟩, ⟨_, rfl⟩, ⟨_, rfl⟩⟩
/-- OnlyResultInstructionsWriteCond, OnlyTheNamedRegistersAreWritten, OnlyStoresWriteMemory: GETC meets all three. -/
theorem witness_whole_machine_frames :
    setsCond .getc = false ∧ storesToMemory .getc = false ∧ raisesFault .getc = false ∧
      ∃ t, exec .getc State.reset = .next t :=
  ⟨rfl, rfl, rfl, ⟨_, rfl⟩⟩
theorem witness_ConsoleOutput : ∃ t, step (start 0x3000 [(0, 0x41)] [(0x3000, 0xF021)]) = .next t := ⟨_, rfl⟩
/-- A faulted state that meets the invariant. -/
def faultedState : State :=
  let record : FaultRecord := { cause := .illegalOpcode 0xD, pcFault := 0x3000 }
  { State.reset with run := .faulted, fault := some record, status := [.fault record] }
theorem witness_FaultRecord :
    faultedState.Inv ∧ (∃ t, step faultedState = .next t) ∧
      faultedState.fault = some { cause := .illegalOpcode 0xD, pcFault := 0x3000 } := by
  refine ⟨⟨by decide, by decide, ?_, by decide, by decide, ?_, by decide⟩, ⟨_, rfl⟩, rfl⟩
  · intro r h
    cases h
    rfl
  · intro rest h
    cases h
theorem witness_LaterInput : runsString .getc = false ∧ runsString (.trap 0x25) = false ∧ raisesFault .getc = false := by decide
theorem witness_WellFormed : (Instr.jmp 2).wellFormed = true ∧ (Instr.trap 0xFF).wellFormed = true := by decide
/-- A state in the middle of a GETC meets the invariant and has a next state. -/
theorem witness_StepKeepsTheInvariant :
    let s : State := { start 0x3001 [] [(0x3000, 0xF020)] with wait := .input .getc }
    s.Inv ∧ ∃ t, step s = .next t := by
  refine ⟨⟨by decide, by decide, ?_, by decide, fun _ => rfl, fun _ _ => rfl, by decide⟩, ⟨_, rfl⟩⟩
  intro r h
  cases h
theorem witness_CanonicalMemories :
    Memory.wf (Memory.ofCells [(5, 1), (3, 2)]) ∧ Memory.wf (Memory.ofCells [(3, 2), (5, 1)]) ∧
      ∀ a, Memory.read (Memory.ofCells [(5, 1), (3, 2)]) a = Memory.read (Memory.ofCells [(3, 2), (5, 1)]) a :=
  ⟨by decide, by decide, fun _ => rfl⟩
theorem witness_Loader : [(0x12 : Byte)].length ≤ 1 ∧ Memory.wf (Memory.ofCells [(5, 1)]) := by decide
/-- BootLoadsInOrderOrReportsTheFailure: a boot that succeeds, then an image that loads and one that does not. -/
theorem witness_Boot :
    ∃ t m, boot [some [0x30, 0x00, 0xF0, 0x25]] [] = .next t ∧ loadImage (some [0x40, 0x00]) t.mem = some m ∧
      loadImage none t.mem = none :=
  ⟨_, _, rfl, rfl, rfl⟩

end Sys2Proof.Tests
end

section
/-! SUPPORT and O1. The bits of an extended field (00_scope.md R9). -/

namespace Sys2Proof.Machine

/-- The bits of a sign-extended field: its own bits, then copies of its top bit. -/
theorem getLsbD_sext {n : Nat} (v : BitVec n) {i : Nat} (hi : i < 16) :
    (sext v).getLsbD i = if i < n then v.getLsbD i else v.getLsbD (n - 1) := by
  rw [sext, BitVec.getLsbD_signExtend, BitVec.msb_eq_getLsbD_last]
  simp only [hi, decide_true, Bool.true_and]

/-- The bits of a zero-extended field: its own bits, then zeros. -/
theorem getLsbD_zext {n : Nat} (v : BitVec n) {i : Nat} (hi : i < 16) :
    (zext v).getLsbD i = if i < n then v.getLsbD i else false := by
  rw [zext, BitVec.getLsbD_setWidth, decide_eq_true hi, Bool.true_and]
  split
  case isTrue => rfl
  case isFalse above => exact BitVec.getLsbD_of_ge v i (Nat.le_of_not_lt above)

/-- Settles O1, from the bits of each of the two extensions. -/
theorem signExtensionCopiesTheTopBit : Obligations.SignExtensionCopiesTheTopBit :=
  fun _ v _ _ _ hi => ⟨getLsbD_sext v hi, getLsbD_zext v hi⟩

end Sys2Proof.Machine
end

section
/-! SUPPORT, O2 and O41. The value of COND in the two wordings of 10_state.md R33, and the steps of a run that has ended. -/

namespace Sys2Proof.Machine

/-- The top bit is 1 exactly for a word of at least 2^15, so `condOf` is the rule's three-way assignment by number. -/
theorem condOf_eq_condByValue (v : Word) : condOf v = condByValue v := by
  have zero : v = 0 ↔ v.toNat = 0 := BitVec.toNat_inj.symm
  have top : v.msb = true ↔ 2 ^ 15 ≤ v.toNat := by simp [BitVec.msb_eq_decide]
  simp only [condOf, condByValue, zero, top]

/-- Settles O2: `condOf` tests the top bit, which is bit 15, and `setcc` assigns COND alone. -/
theorem setccAssignsOneOfThreeValues : Obligations.SetccAssignsOneOfThreeValues := by
  intro v s
  refine ⟨?_, condOf_eq_condByValue v, rfl⟩
  rw [setcc_cond, condOf, BitVec.msb_eq_getLsbD_last]

/-- Only RUNNING executes (10_state.md R35). -/
theorem step_ended {s : State} (h : s.run ≠ .running) : step s = .next s := by
  cases hr : s.run
  case running => exact absurd hr h
  case halted | faulted => simp [step, cycle, hr]

/-- Settles O41: neither HALTED nor FAULTED is RUNNING. -/
theorem endedRunsStayAsTheyAre : Obligations.EndedRunsStayAsTheyAre := by
  rintro s (h | h) <;> exact step_ended (by simp [h])

end Sys2Proof.Machine
end

section
/-! SUPPORT. What a step can do, said once (70_reset_and_hazards.md R274, R275; notes/assumptions/3.md, 5.md, 6.md, 7.md). -/

namespace Sys2Proof.Machine

@[simp] theorem hostTurn_wait (s : State) : (hostTurn s).wait = s.wait := by
  obtain ⟨-, -, -, -, -, h, -⟩ := hostTurn_frame s
  exact h

@[simp] theorem hostTurn_out (s : State) : (hostTurn s).out = s.out := by
  obtain ⟨-, -, -, -, -, -, -, h, -⟩ := hostTurn_frame s
  exact h

@[simp] theorem hostTurn_stringRest (s : State) : (hostTurn s).stringRest = s.stringRest := by
  obtain ⟨-, -, -, -, -, -, -, -, -, -, h⟩ := hostTurn_frame s
  exact h

/-- The ways a step from `s` answers `t`. -/
inductive StepCase (s t : State) : Prop where
  /-- The run has ended. -/
  | ended (run : s.run ≠ .running) (same : t = s)
  /-- The instruction in progress still waits after the host's turn. -/
  | waits (run : s.run = .running) (rest : Rest) (wait : s.wait = .input rest) (empty : (hostTurn s).kbFull = false)
      (turn : t = hostTurn s)
  /-- The instruction in progress takes the character. -/
  | resumes (run : s.run = .running) (rest : Rest) (wait : s.wait = .input rest) (full : (hostTurn s).kbFull = true)
      (resumed : resume rest (hostTurn s).proceed = .next t)
  /-- A string routine reads its next words. -/
  | goesOn (run : s.run = .running) (wait : s.wait = .none) (kind : StringKind) (a : Word)
      (string : s.stringRest = some (kind, a)) (read : t = routineString kind a ((hostTurn s).setStringRest none))
  /-- The next instruction runs. -/
  | runs (run : s.run = .running) (wait : s.wait = .none) (noString : s.stringRest = none)
      (ran : runInstr (hostTurn s) = .next t)

theorem step_cases {s t : State} (h : step s = .next t) : StepCase s t := by
  by_cases run : s.run = .running
  case neg =>
    rw [step_ended run] at h
    cases h
    exact .ended run rfl
  case pos =>
    rw [step_running run] at h
    cases wait : s.wait with
    | none =>
      cases string : s.stringRest with
      | none => exact .runs run wait string (by simpa [advance, proceedOrRun, wait, string] using h)
      | some p =>
        obtain ⟨kind, a⟩ := p
        simp only [advance, proceedOrRun, hostTurn_wait, hostTurn_stringRest, wait, string] at h
        cases h
        exact .goesOn run wait kind a string rfl
    | input rest =>
      simp only [advance, hostTurn_wait, wait] at h
      split at h
      case isTrue full => exact .resumes run rest wait full h
      case isFalse empty =>
        cases h
        exact .waits run rest wait (by simpa using empty) rfl

/-- A read holds only with the latch empty (20_memory.md R65). -/
theorem kbFull_of_memRead_none {a : Word} {s : State} (held : memRead a s = none) : s.kbFull = false := by
  by_cases hr : readable a s
  · simp [memRead_readable hr] at held
  · exact (memRead_not_readable hr).2.1

/-- Everything the running of an instruction can do: it holds at its fetch with the latch empty, or executes what the fetch
read. -/
theorem runInstr_cases {s t : State} (h : runInstr s = .next t) :
    s.kbFull = false ∧ t = s.hold .fetch ∨ ∃ w s', fetch s = some (w, s') ∧ exec (decode w) s' = .next t := by
  unfold runInstr at h
  split at h
  · next w s' fetched => exact .inr ⟨w, s', fetched, h⟩
  · next held =>
    cases h
    exact .inl ⟨kbFull_of_memRead_none (Option.map_eq_none_iff.1 held), rfl⟩

end Sys2Proof.Machine
end

section
/-! SUPPORT, O44 to O47. What an instruction that raises no fault may write (10_state.md R31, R34, R40). -/

namespace Sys2Proof.Machine

/-- From `s` to `t` only the general registers in `written`, COND where `cond` says so and memory where `mem` says so have
been written, and the console output at most appended to. Of `pc`, the latch and the rest nothing is said. -/
structure WritesOnly (written : List RegIdx) (cond mem : Bool) (s t : State) : Prop where
  regs : sameRegsBut written s t
  cond : cond = false → t.cond = s.cond
  mem : mem = false → t.mem = s.mem
  out : s.out <+: t.out

theorem sameRegsBut_of_regs_eq {written : List RegIdx} {s t : State} (h : t.regs = s.regs) : sameRegsBut written s t :=
  fun r _ => reg_congr h r

variable {written more : List RegIdx} {cond mem : Bool} {s t u : State}

theorem WritesOnly.mono (h : WritesOnly written cond mem s t) (sub : written ⊆ more) : WritesOnly more cond mem s t :=
  { h with regs := fun r hr => h.regs r fun hw => hr (sub hw) }

/-- A routine after the trap entry, which writes R7 alone (60_exceptions.md R246). -/
theorem WritesOnly.afterTrapEntry (h : WritesOnly written false false (trapEntry s) t) :
    WritesOnly (written ++ [7]) false false s t where
  regs r hr := by
    simp only [List.mem_append, List.mem_singleton, not_or] at hr
    rw [h.regs r hr.1, reg_trapEntry, if_neg hr.2]
  cond := h.cond
  mem := h.mem
  out := h.out

theorem writesOnly_writeResult (dr : RegIdx) (v : Word) (s : State) :
    WritesOnly [dr] true false s (writeResult dr v s) where
  regs := by simp +contextual [sameRegsBut]
  cond := nofun
  mem _ := rfl
  out := List.prefix_rfl

theorem writesOnly_setPc (target : Word) (s : State) : WritesOnly [] false false s (s.setPc target) :=
  ⟨sameRegsBut_of_regs_eq rfl, fun _ => rfl, fun _ => rfl, List.prefix_rfl⟩

/-- JSR and JSRR: R7 is the link register (41_control.md R153, R154). -/
theorem writesOnly_link (target : Word) (s : State) :
    WritesOnly [7] false false s ((s.setReg 7 s.pc).setPc target) where
  regs := by simp +contextual [sameRegsBut]
  cond _ := rfl
  mem _ := rfl
  out := List.prefix_rfl

theorem writesOnly_memWrite (a v : Word) (s : State) : WritesOnly [] false true s (memWrite a v s) :=
  ⟨sameRegsBut_of_regs_eq rfl, fun _ => rfl, nofun, List.prefix_rfl⟩

theorem writesOnly_loadFrom (a : Word) (dr : RegIdx) (s : State) : WritesOnly [dr] true false s (loadFrom a dr s) := by
  obtain ⟨mem, -, -, -, -, -, out, regs⟩ := loadFrom_frame a dr s
  exact ⟨regs, nofun, fun _ => mem, out ▸ List.prefix_rfl⟩

theorem writesOnly_loadThrough (a : Word) (dr : RegIdx) (s : State) :
    WritesOnly [dr] true false s (loadThrough a dr s) := by
  obtain ⟨mem, -, -, -, -, -, out, regs⟩ := loadThrough_frame a dr s
  exact ⟨regs, nofun, fun _ => mem, out ▸ List.prefix_rfl⟩

theorem writesOnly_storeThrough (a : Word) (sr : RegIdx) (s : State) :
    WritesOnly [] false true s (storeThrough a sr s) := by
  obtain ⟨regs, -, cond, -, -, -, -, out⟩ := storeThrough_frame a sr s
  exact ⟨sameRegsBut_of_regs_eq regs, fun _ => cond, nofun, out ▸ List.prefix_rfl⟩

theorem writesOnly_routineGetc (s : State) : WritesOnly [0] false false s (routineGetc s) := by
  obtain ⟨mem, -, cond, -, -, -, -, out, regs⟩ := routineGetc_frame s
  exact ⟨regs, fun _ => cond, fun _ => mem, out ▸ List.prefix_rfl⟩

theorem writesOnly_routineOut (s : State) : WritesOnly [] false false s (routineOut s) :=
  ⟨sameRegsBut_of_regs_eq rfl, fun _ => rfl, fun _ => rfl, List.prefix_append _ _⟩

theorem writesOnly_routineIn (s : State) : WritesOnly [0] false false s (routineIn s) := by
  obtain ⟨mem, -, cond, -, -, -, -, out, regs⟩ := routineIn_frame s
  exact ⟨regs, fun _ => cond, fun _ => mem, out⟩

theorem writesOnly_routineString (kind : StringKind) (a : Word) (s : State) :
    WritesOnly [] false false s (routineString kind a s) := by
  obtain ⟨regs, -, cond, mem, -, -, -, -, out⟩ := stringLoop_frame kind stringPass a s
  exact ⟨sameRegsBut_of_regs_eq regs, fun _ => cond, fun _ => mem, out⟩

theorem writesOnly_haltRun (s : State) : WritesOnly [] false false s (haltRun s) :=
  ⟨sameRegsBut_of_regs_eq rfl, fun _ => rfl, fun _ => rfl, List.prefix_rfl⟩

/-- The six routines write no register but R0. -/
theorem writesOnly_dispatchTrap {v : Byte} (h : isDefinedVector v = true) (s : State) :
    WritesOnly [0] false false s (dispatchTrap v s) := by
  obtain ⟨-, e⟩ | ⟨-, e⟩ | ⟨-, e⟩ | ⟨-, e⟩ | ⟨-, e⟩ | ⟨-, e⟩ := dispatchTrap_defined h s <;> rw [e]
  · exact writesOnly_routineGetc s
  · exact (writesOnly_routineOut s).mono (List.nil_subset _)
  · exact (writesOnly_routineString _ _ s).mono (List.nil_subset _)
  · exact writesOnly_routineIn s
  · exact (writesOnly_routineString _ _ s).mono (List.nil_subset _)
  · exact (writesOnly_haltRun s).mono (List.nil_subset _)

/-- Each instruction that raises no fault writes only what the tables of 10_state.md R31 and R34 give it. -/
theorem writesOnly_exec {i : Instr} (noFault : raisesFault i = false) (e : exec i s = .next t) :
    WritesOnly (writtenRegs i) (setsCond i) (storesToMemory i) s t := by
  cases i
  case rti | reserved => cases noFault
  case trap v =>
    cases e
    have defined : isDefinedVector v = true := by simpa [raisesFault] using noFault
    exact (writesOnly_dispatchTrap defined _).afterTrapEntry
  all_goals cases e
  case addR | addI | andR | andI | not | lea => exact writesOnly_writeResult _ _ s
  case br n z p off9 =>
    split
    case isTrue => exact writesOnly_setPc _ s
    case isFalse => exact ⟨sameRegsBut_of_regs_eq rfl, fun _ => rfl, fun _ => rfl, List.prefix_rfl⟩
  case jmp | ret => exact writesOnly_setPc _ s
  case jsr | jsrr => exact writesOnly_link _ s
  case ld | ldr => exact writesOnly_loadFrom _ _ s
  case ldi => exact writesOnly_loadThrough _ _ s
  case st | str => exact writesOnly_memWrite _ _ s
  case sti => exact writesOnly_storeThrough _ _ s
  case getc => exact (writesOnly_routineGetc _).afterTrapEntry
  case out => exact (writesOnly_routineOut _).afterTrapEntry
  case puts | putsp => exact (writesOnly_routineString _ _ _).afterTrapEntry
  case input => exact (writesOnly_routineIn _).afterTrapEntry
  case halt => exact (writesOnly_haltRun _).afterTrapEntry

/-- Settles O44: COND is among what `writesOnly_exec` bounds. -/
theorem onlyResultInstructionsWriteCond : Obligations.OnlyResultInstructionsWriteCond :=
  fun _ _ _ noCond noFault e => (writesOnly_exec noFault e).cond noCond

/-- Settles O45: the general registers are among what `writesOnly_exec` bounds. -/
theorem onlyTheNamedRegistersAreWritten : Obligations.OnlyTheNamedRegistersAreWritten :=
  fun _ _ _ noFault e => (writesOnly_exec noFault e).regs

/-- Settles O46: equal memories read alike. -/
theorem onlyStoresWriteMemory : Obligations.OnlyStoresWriteMemory := by
  intro i s t noStore noFault e a
  rw [(writesOnly_exec noFault e).mem noStore]

/-! The console output along a step -/

/-- A fault leaves the console output as it is (60_exceptions.md R243). -/
theorem exec_out_of_raisesFault {i : Instr} (fault : raisesFault i = true) (e : exec i s = .next t) : t.out = s.out := by
  cases i
  case rti | reserved => cases e; rfl
  case trap v =>
    cases e
    have unknown : isDefinedVector v = false := by simpa [raisesFault] using fault
    rw [dispatchTrap_unknown unknown, raise_out, trapEntry_out]
  all_goals cases fault

theorem exec_out_prefix {i : Instr} (e : exec i s = .next t) : s.out <+: t.out := by
  cases h : raisesFault i
  case false => exact (writesOnly_exec h e).out
  case true => exact exec_out_of_raisesFault h e ▸ List.prefix_rfl

theorem fetch_out {w : Word} (h : fetch s = some (w, t)) : t.out = s.out := by
  obtain ⟨-, rfl | ⟨-, rfl⟩⟩ := fetch_cases h <;> rfl

theorem runInstr_out_prefix (h : runInstr s = .next t) : s.out <+: t.out := by
  obtain ⟨-, rfl⟩ | ⟨w, s', fetched, e⟩ := runInstr_cases h
  · exact List.prefix_rfl
  · exact fetch_out fetched ▸ exec_out_prefix e

theorem resume_out_prefix {rest : Rest} (h : resume rest s = .next t) : s.out <+: t.out := by
  cases rest
  case fetch => exact runInstr_out_prefix h
  all_goals cases h
  case load dr => exact (writesOnly_loadFrom _ dr s).out
  case ldiPointer dr => exact (writesOnly_loadThrough _ dr s).out
  case stiPointer sr => exact (writesOnly_storeThrough _ sr s).out
  case getc => exact (writesOnly_routineGetc s).out
  case input =>
    obtain ⟨-, -, -, -, -, -, -, out, -⟩ := routineInAfterPrompt_frame s
    exact out
  case string kind a => exact (writesOnly_routineString kind a s).out

/-- Settles O47, by the cases of a step: the host's turn writes nothing, and every meaning at most appends. -/
theorem consoleOutputOnlyGrows : Obligations.ConsoleOutputOnlyGrows := by
  intro s t h
  rw [← hostTurn_out s]
  cases step_cases h with
  | ended _ same =>
    have unchanged : (hostTurn s).out = t.out := by rw [same, hostTurn_out]
    exact unchanged ▸ List.prefix_rfl
  | waits _ _ _ _ turn => exact turn ▸ List.prefix_rfl
  | resumes _ _ _ _ resumed =>
    rw [← proceed_out]
    exact resume_out_prefix resumed
  | goesOn _ _ kind a _ read =>
    rw [read, ← setStringRest_out (hostTurn s) none]
    exact (writesOnly_routineString kind a _).out
  | runs _ _ _ ran => exact runInstr_out_prefix ran

end Sys2Proof.Machine
end

section
/-! SUPPORT, O48, O52 and O53. The invariant of a sound state: reset meets it and every step keeps it. An instruction starts
from a `Ready` state, and each operation it is made of either leaves the state `Ready` or ends the step in a sound state. -/

namespace Sys2Proof.Machine

/-- A sound state of a run that has not ended, whatever is in progress. -/
structure State.Live (s : State) : Prop where
  memory : Memory.wf s.mem
  running : s.run = .running
  noFault : s.fault = none
  noReport : s.status = []

/-- A live state with no instruction suspended and no string routine left to go on. -/
structure State.Ready (s : State) : Prop extends State.Live s where
  noWait : s.wait = .none
  noString : s.stringRest = none

variable {s t : State}

theorem State.Inv.live (h : s.Inv) (run : s.run = .running) : s.Live where
  memory := h.memory
  running := run
  noFault := Decidable.not_not.1 fun some => by simp [h.faultRecord.2 some] at run
  noReport := by rw [h.statusReports, run, statusOf]

theorem State.Live.inv (h : s.Live) (one : s.wait ≠ .none → s.stringRest = none)
    (empty : ∀ rest, s.wait = .input rest → s.kbFull = false) : s.Inv where
  memory := h.memory
  faultRecord := by simp [h.running, h.noFault]
  faultCause := by simp [h.noFault]
  endedIdle := fun ended => absurd h.running ended
  oneInProgress := one
  waitsEmpty := empty
  statusReports := by rw [h.noReport, h.running, statusOf]

/-! What keeps a state live or ready -/

theorem State.Live.hostTurn (h : s.Live) : (Machine.hostTurn s).Live := by
  obtain e | ⟨_, -, e⟩ | ⟨_, _, -, -, e⟩ := hostTurn_cases s <;> rw [e]
  all_goals exact { h with }

/-- A suspended instruction goes on from a ready state (70_reset_and_hazards.md R275). -/
theorem State.Live.ready_proceed (h : s.Live) (noString : s.stringRest = none) : s.proceed.Ready :=
  { h with noWait := rfl, noString := noString }

namespace State.Ready

theorem hostTurn (h : s.Ready) : (Machine.hostTurn s).Ready :=
  { h.toLive.hostTurn with
    noWait := (hostTurn_wait s).trans h.noWait
    noString := (hostTurn_stringRest s).trans h.noString }

theorem stringHostTurn (h : s.Ready) (a : Word) : (Machine.stringHostTurn a s).Ready := by
  unfold Machine.stringHostTurn
  split
  · exact h.hostTurn
  · exact h

theorem setReg (h : s.Ready) (r : RegIdx) (v : Word) : (s.setReg r v).Ready := { h with }

theorem setPc (h : s.Ready) (target : Word) : (s.setPc target).Ready := { h with }

theorem writeResult (h : s.Ready) (dr : RegIdx) (v : Word) : (Machine.writeResult dr v s).Ready := { h with }

theorem trapEntry (h : s.Ready) : (Machine.trapEntry s).Ready := { h with }

theorem takeChar (h : s.Ready) : s.takeChar.Ready := { h with noWait := rfl }

theorem consoleOut (h : s.Ready) (cs : List Byte) : (Machine.consoleOut cs s).Ready := { h with }

theorem memWrite (h : s.Ready) (a v : Word) : (Machine.memWrite a v s).Ready :=
  { h with memory := Memory.wf_write h.memory a v }

theorem memRead {a v : Word} (h : s.Ready) (e : Machine.memRead a s = some (v, t)) : t.Ready := by
  obtain ⟨-, ⟨-, rfl⟩ | ⟨-, -, rfl⟩⟩ := memRead_cases e
  · exact h
  · exact h.takeChar

theorem fetch {w : Word} (h : s.Ready) (e : Machine.fetch s = some (w, t)) : t.Ready := by
  obtain ⟨-, rfl | ⟨-, rfl⟩⟩ := fetch_cases e
  · exact h.setPc _
  · exact h.takeChar.setPc _

/-! How a step that began ready ends -/

theorem not_waiting (h : s.Ready) (rest : Rest) : s.wait ≠ .input rest := by
  simp [h.noWait]

theorem inv (h : s.Ready) : s.Inv :=
  h.toLive.inv (fun _ => h.noString) fun rest wait => absurd wait (h.not_waiting rest)

theorem inv_hold (h : s.Ready) (rest : Rest) (empty : s.kbFull = false) : (s.hold rest).Inv :=
  State.Live.inv (s := s.hold rest) { h with } (fun _ => h.noString) fun _ _ => empty

theorem inv_setStringRest (h : s.Ready) (rest : Option (StringKind × Word)) : (s.setStringRest rest).Inv :=
  State.Live.inv (s := s.setStringRest rest) { h with } (fun wait => absurd h.noWait wait)
    fun rest wait => absurd wait (h.not_waiting rest)

/-- HALT reports its notice and leaves no instruction in progress (10_state.md R38, R41). -/
theorem inv_haltRun (h : s.Ready) : (haltRun s).Inv where
  memory := h.memory
  faultRecord := by simp [h.noFault]
  faultCause := by simp [h.noFault]
  endedIdle _ := ⟨h.noWait, h.noString⟩
  oneInProgress _ := h.noString
  waitsEmpty rest wait := absurd wait (h.not_waiting rest)
  statusReports := by simp [h.noReport, statusOf]

/-- A fault is recorded and reported once, and memory is free but canonical (60_exceptions.md R241, R243). -/
theorem inv_raise (h : s.Ready) {cause : Cause} (execution : cause.fromExecution = true) : (raise cause s).Inv where
  memory := Memory.wf_ofCells _
  faultRecord := by simp
  faultCause r record := by
    rw [raise_fault, Option.some.injEq] at record
    rw [← record, execution]
  endedIdle _ := ⟨h.noWait, h.noString⟩
  oneInProgress _ := h.noString
  waitsEmpty rest wait := absurd wait (h.not_waiting rest)
  statusReports := by simp [h.noReport, statusOf]

/-! The meanings -/

theorem inv_readThen {a : Word} {rest : Rest} {k : Word → State → State} (h : s.Ready)
    (next : ∀ v u, u.Ready → (k v u).Inv) : (readThen a rest k s).Inv := by
  obtain ⟨empty, e⟩ | e | ⟨-, e⟩ := readThen_cases a rest k s <;> rw [e]
  · exact h.inv_hold rest empty
  · exact next _ s h
  · exact next _ _ h.takeChar

theorem inv_getThen {rest : Rest} {k : Byte → State → State} (h : s.Ready)
    (next : ∀ c u, u.Ready → (k c u).Inv) : (getThen rest k s).Inv := by
  cases latch : s.kbFull
  case false => exact getThen_empty latch ▸ h.inv_hold rest latch
  case true => exact getThen_full latch ▸ next _ _ h.takeChar

theorem inv_loadFrom (h : s.Ready) (a : Word) (dr : RegIdx) : (loadFrom a dr s).Inv :=
  h.inv_readThen fun v _ hu => (hu.writeResult dr v).inv

theorem inv_loadThrough (h : s.Ready) (a : Word) (dr : RegIdx) : (loadThrough a dr s).Inv :=
  h.inv_readThen fun p _ hu => hu.inv_loadFrom p dr

theorem inv_storeThrough (h : s.Ready) (a : Word) (sr : RegIdx) : (storeThrough a sr s).Inv :=
  h.inv_readThen fun p _ hu => (hu.memWrite p _).inv

theorem inv_routineGetc (h : s.Ready) : (routineGetc s).Inv :=
  h.inv_getThen fun c _ hu => (hu.setReg 0 (zext c)).inv

theorem inv_routineInAfterPrompt (h : s.Ready) : (routineInAfterPrompt s).Inv :=
  h.inv_getThen fun c _ hu => ((hu.consoleOut [c]).setReg 0 (zext c)).inv

theorem inv_routineIn (h : s.Ready) : (routineIn s).Inv :=
  (h.consoleOut Config.inPrompt).inv_routineInAfterPrompt

theorem inv_stringLoop (kind : StringKind) (fuel : Nat) (a : Word) (h : s.Ready) :
    (stringLoop kind fuel a s).Inv := by
  induction fuel generalizing a s with
  | zero => exact h.inv_setStringRest _
  | succ fuel ih =>
    have turned := h.stringHostTurn a
    simp only [stringLoop]
    split
    · next held => exact turned.inv_hold _ (kbFull_of_memRead_none held)
    · next w s' read =>
      split
      · exact (turned.memRead read).inv
      · exact ih _ ((turned.memRead read).consoleOut _)

theorem inv_dispatchTrap (h : s.Ready) (v : Byte) : (dispatchTrap v s).Inv := by
  cases vector : isDefinedVector v
  case false => exact dispatchTrap_unknown vector s ▸ h.inv_raise rfl
  case true =>
    obtain ⟨-, e⟩ | ⟨-, e⟩ | ⟨-, e⟩ | ⟨-, e⟩ | ⟨-, e⟩ | ⟨-, e⟩ := dispatchTrap_defined vector s <;> rw [e]
    · exact h.inv_routineGetc
    · exact (h.consoleOut _).inv
    · exact h.inv_stringLoop _ _ _
    · exact h.inv_routineIn
    · exact h.inv_stringLoop _ _ _
    · exact h.inv_haltRun

theorem inv_exec {i : Instr} (h : s.Ready) (e : exec i s = .next t) : t.Inv := by
  cases i <;> cases e
  case addR | addI | andR | andI | not | lea => exact (h.writeResult _ _).inv
  case br n z p off9 =>
    split
    case isTrue => exact (h.setPc _).inv
    case isFalse => exact h.inv
  case jmp | ret => exact (h.setPc _).inv
  case jsr | jsrr => exact ((h.setReg 7 _).setPc _).inv
  case ld | ldr => exact h.inv_loadFrom _ _
  case ldi => exact h.inv_loadThrough _ _
  case st | str => exact (h.memWrite _ _).inv
  case sti => exact h.inv_storeThrough _ _
  case trap v => exact h.trapEntry.inv_dispatchTrap v
  case getc => exact h.trapEntry.inv_routineGetc
  case out => exact (h.trapEntry.consoleOut _).inv
  case puts | putsp => exact h.trapEntry.inv_stringLoop _ _ _
  case input => exact h.trapEntry.inv_routineIn
  case halt => exact h.trapEntry.inv_haltRun
  case rti | reserved => exact h.inv_raise rfl

theorem inv_runInstr (h : s.Ready) (e : runInstr s = .next t) : t.Inv := by
  obtain ⟨empty, rfl⟩ | ⟨w, s', fetched, executed⟩ := runInstr_cases e
  · exact h.inv_hold .fetch empty
  · exact (h.fetch fetched).inv_exec executed

theorem inv_resume {rest : Rest} (h : s.Ready) (e : resume rest s = .next t) : t.Inv := by
  cases rest
  case fetch => exact h.inv_runInstr e
  all_goals cases e
  case load dr => exact h.inv_loadFrom _ dr
  case ldiPointer dr => exact h.inv_loadThrough _ dr
  case stiPointer sr => exact h.inv_storeThrough _ sr
  case getc => exact h.inv_routineGetc
  case input => exact h.inv_routineInAfterPrompt
  case string kind a => exact h.inv_stringLoop kind _ a

end State.Ready

/-- Settles O53, by the cases of a step: an instruction starts or goes on from a ready state, and the other steps change
nothing but the latch. -/
theorem stepKeepsTheInvariant : Obligations.StepKeepsTheInvariant := by
  intro s t h e
  cases step_cases e with
  | ended _ same => exact same ▸ h
  | waits run rest wait empty turn =>
    have noString : s.stringRest = none := h.oneInProgress (by simp [wait])
    rw [turn]
    exact (h.live run).hostTurn.inv (fun _ => by rw [hostTurn_stringRest, noString]) fun _ _ => empty
  | resumes run rest wait _ resumed =>
    have noString : s.stringRest = none := h.oneInProgress (by simp [wait])
    have ready := (h.live run).hostTurn.ready_proceed (by rw [hostTurn_stringRest, noString])
    exact ready.inv_resume resumed
  | goesOn run wait kind a _ read =>
    have ready : ((hostTurn s).setStringRest none).Ready :=
      { (h.live run).hostTurn with noWait := (hostTurn_wait s).trans wait, noString := rfl }
    exact read ▸ ready.inv_stringLoop kind stringPass a
  | runs run wait noString ran =>
    have ready : s.Ready := { h.live run with noWait := wait, noString := noString }
    exact ready.hostTurn.inv_runInstr ran

/-- Settles O48: a fault record stands only in FAULTED, and FAULTED is terminal. -/
theorem faultRecordIsNeverCleared : Obligations.FaultRecordIsNeverCleared := by
  intro s t r h e record
  have faulted : s.run = .faulted := h.faultRecord.2 (by simp [record])
  rw [endedRunsStayAsTheyAre s (.inr faulted)] at e
  cases e
  exact record

/-- Settles O52: the reset state is ready for its first instruction. -/
theorem resetMeetsTheInvariant : Obligations.ResetMeetsTheInvariant := by
  have ready : State.reset.Ready :=
    { memory := Memory.wf_nil, running := rfl, noFault := rfl, noReport := rfl, noWait := rfl, noString := rfl }
  exact ready.inv

end Sys2Proof.Machine
end

section
/-! SUPPORT and O54. A canonical memory is settled by what its addresses read as (20_memory.md R61; notes/assumptions/1.md). -/

namespace Sys2Proof.Machine

theorem Memory.readAt_cons_same (n : Nat) (x : Word) (m : Memory) : Memory.readAt ((n, x) :: m) n = x := if_pos rfl

theorem Memory.readAt_cons_of_ne {k n : Nat} (ne : k ≠ n) (x : Word) (m : Memory) :
    Memory.readAt ((k, x) :: m) n = Memory.readAt m n := if_neg ne

/-- The two memories read alike at every address number. -/
def Memory.ReadAlike (m m' : Memory) : Prop :=
  ∀ n < 2 ^ 16, Memory.readAt m n = Memory.readAt m' n

theorem Memory.ReadAlike.symm {m m' : Memory} (alike : m.ReadAlike m') : m'.ReadAlike m :=
  fun n hn => (alike n hn).symm

/-- No cell stands below every cell of a memory that reads alike: it would read as its own word on one side and as
`MEM_RESET` on the other. -/
theorem Memory.ReadAlike.head_not_below {k : Nat} {x : Word} {m m' : Memory} (alike : ReadAlike ((k, x) :: m) m')
    (hm : Memory.wf ((k, x) :: m)) : ¬ ∀ c ∈ m', k < c.1 := by
  intro below
  obtain ⟨⟨hk, hx⟩, -, -⟩ := Memory.wf_cons.1 hm
  have read := alike k hk
  rw [readAt_cons_same, readAt_of_lt below] at read
  exact hx read

/-- The first cells of two canonical memories that read alike have the same address. -/
theorem Memory.ReadAlike.head_le {k k' : Nat} {x x' : Word} {m m' : Memory}
    (alike : ReadAlike ((k, x) :: m) ((k', x') :: m')) (hm : Memory.wf ((k, x) :: m))
    (hm' : Memory.wf ((k', x') :: m')) : k' ≤ k := by
  refine Nat.le_of_not_lt fun lt => ?_
  obtain ⟨-, above, -⟩ := Memory.wf_cons.1 hm'
  refine alike.head_not_below hm ?_
  simp only [List.mem_cons, forall_eq_or_imp]
  exact ⟨lt, fun c hc => Nat.lt_trans lt (above c hc)⟩

/-- Under one shared cell the rest of two canonical memories reads alike. -/
theorem Memory.ReadAlike.tail {k : Nat} {x x' : Word} {m m' : Memory} (alike : ReadAlike ((k, x) :: m) ((k, x') :: m'))
    (above : ∀ c ∈ m, k < c.1) (above' : ∀ c ∈ m', k < c.1) : m.ReadAlike m' := by
  intro n hn
  by_cases e : k = n
  case pos => rw [readAt_of_lt (e ▸ above), readAt_of_lt (e ▸ above')]
  case neg =>
    have read := alike n hn
    rwa [readAt_cons_of_ne e, readAt_cons_of_ne e] at read

/-- Cell by cell: the first cells agree in their address, then in their word, and the rest reads alike. -/
theorem Memory.ReadAlike.eq {m m' : Memory} (alike : m.ReadAlike m') (hm : Memory.wf m) (hm' : Memory.wf m') :
    m = m' := by
  induction m generalizing m' with
  | nil =>
    cases m' with
    | nil => rfl
    | cons c' m' => exact absurd (by simp) (alike.symm.head_not_below hm')
  | cons c m ih =>
    cases m' with
    | nil => exact absurd (by simp) (alike.head_not_below hm)
    | cons c' m' =>
      obtain ⟨k, x⟩ := c
      obtain ⟨k', x'⟩ := c'
      obtain ⟨⟨hk, -⟩, above, wf⟩ := Memory.wf_cons.1 hm
      obtain ⟨-, above', wf'⟩ := Memory.wf_cons.1 hm'
      obtain rfl : k = k' := Nat.le_antisymm (alike.symm.head_le hm' hm) (alike.head_le hm hm')
      have word := alike k hk
      rw [readAt_cons_same, readAt_cons_same] at word
      rw [word, ih (alike.tail above above') wf wf']

/-- Settles O54: the address words are the numbers below 2^16. -/
theorem canonicalMemoriesThatReadAlikeAreEqual : Obligations.CanonicalMemoriesThatReadAlikeAreEqual := by
  intro m m' hm hm' read
  refine Memory.ReadAlike.eq (fun n hn => ?_) hm hm'
  have atWord := read (BitVec.ofNat 16 n)
  rwa [Memory.read, Memory.read, BitVec.toNat_ofNat, Nat.mod_eq_of_lt hn] at atWord

end Sys2Proof.Machine
end

section
/-! SUPPORT, O56 and O57. The bytes of an image as words, and where the loader puts them (20_memory.md R79 to R81). -/

namespace Sys2Proof.Machine

/-- Two bytes make the word with the first in bits 15..8 (20_memory.md R79). -/
theorem toNat_append_bytes (hi lo : Byte) : (hi ++ lo).toNat = hi.toNat * 256 + lo.toNat := by
  rw [BitVec.toNat_append, ← Nat.shiftLeft_add_eq_or_of_lt lo.isLt, Nat.shiftLeft_eq]

/-- A word as the two bytes an image holds it in, the high byte first. -/
theorem append_bytes_of_word (w : Word) :
    BitVec.ofNat 8 (w.toNat / 256) ++ BitVec.ofNat 8 (w.toNat % 256) = w := by
  apply BitVec.eq_of_toNat_eq
  rw [toNat_append_bytes, BitVec.toNat_ofNat, BitVec.toNat_ofNat]
  omega

/-- A single byte left over is no word (20_memory.md R80). -/
theorem wordsOfBytes_short {tail : List Byte} (short : tail.length ≤ 1) : wordsOfBytes tail = [] := by
  match tail, short with
  | [], _ => rfl
  | [_], _ => rfl

/-- The words of an image come back from its bytes, whatever single byte trails. -/
theorem wordsOfBytes_of_words (ws : List Word) {tail : List Byte} (short : tail.length ≤ 1) :
    wordsOfBytes
      ((ws.flatMap fun w => [BitVec.ofNat 8 (w.toNat / 256), BitVec.ofNat 8 (w.toNat % 256)]) ++ tail) = ws := by
  induction ws with
  | nil => exact wordsOfBytes_short short
  | cons w ws ih =>
    simp only [List.flatMap_cons, List.cons_append, List.nil_append, wordsOfBytes]
    rw [append_bytes_of_word, ih]

/-- A read after the words are placed from `n` up: the word placed at the address, and what stood there elsewhere. -/
theorem readAt_placeWords {m : Memory} (hm : Memory.wf m) (n : Nat) (ws : List Word) {j : Nat} (hj : j < 2 ^ 16) :
    Memory.readAt (placeWords n ws m) j =
      if n ≤ j ∧ j < n + ws.length then ws.getD (j - n) 0 else Memory.readAt m j := by
  induction ws generalizing n m with
  | nil => rw [placeWords, if_neg (by simp)]
  | cons w ws ih =>
    rw [placeWords, List.length_cons]
    split
    case isFalse discarded => rw [if_neg (by omega)]
    case isTrue hn =>
      rw [ih (Memory.wf_writeAt hm hn w) (n + 1), Memory.readAt_writeAt hm]
      obtain before | rfl | after := Nat.lt_trichotomy j n
      · rw [if_neg (by omega), if_neg (by omega), if_neg (by omega)]
      · rw [if_neg (by omega), if_pos rfl, if_pos (by omega), Nat.sub_self, List.getD_cons_zero]
      · have index : j - n = (j - (n + 1)) + 1 := by omega
        have range : (n + 1 ≤ j ∧ j < n + 1 + ws.length) ↔ (n ≤ j ∧ j < n + (ws.length + 1)) := by omega
        simp only [range, index, List.getD_cons_succ, if_neg (Nat.ne_of_gt after)]

/-- Settles O56, by the placing of the image's words from its origin up. -/
theorem loaderPlacesTheImagesWords : Obligations.LoaderPlacesTheImagesWords := by
  intro hi lo ws tail m short hm origin body
  refine ⟨placeWords origin ws m, ?_, wf_placeWords hm origin ws, fun a => readAt_placeWords hm origin ws a.isLt⟩
  rw [loadImage, toNat_append_bytes, wordsOfBytes_of_words ws short]

/-- Settles O57: only a header of two bytes loads. -/
theorem loadFailsOnAnUnreadableOrShortStream : Obligations.LoadFailsOnAnUnreadableOrShortStream := by
  intro image m
  match image with
  | none => simp [loadImage]
  | some [] => simp [loadImage]
  | some [_] => simp [loadImage]
  | some (_ :: _ :: _) => simp [loadImage]

end Sys2Proof.Machine
end

section
/-! SUPPORT and O31 to O36. The memory port, one lemma for each kind of address (20_memory.md R62 to R67). -/

namespace Sys2Proof.Machine

variable (s : State)

theorem memRead_kbsr : memRead Config.kbsrAddr s = some (kbsrValue s, s) := if_pos rfl

theorem memRead_kbdr : memRead Config.kbdrAddr s = (consoleGet s).map fun r => (zext r.1, r.2) := by
  rw [memRead, if_neg (by decide), if_pos rfl]

/-- A KBDR read with the latch empty must wait (20_memory.md R65). -/
theorem memRead_kbdr_empty {s : State} (empty : s.kbFull = false) : memRead Config.kbdrAddr s = none := by
  rw [memRead_kbdr, consoleGet_empty empty, Option.map_none]

theorem memRead_kbdr_full {s : State} (full : s.kbFull = true) :
    memRead Config.kbdrAddr s = some (zext s.kbChar, s.takeChar) := by
  rw [memRead_kbdr, consoleGet_full full, Option.map_some]

/-- The cell a store wrote holds its word, the backing cell of a device register too (20_memory.md R63). -/
theorem read_memWrite_same {s : State} (hm : Memory.wf s.mem) (a v : Word) : (memWrite a v s).mem.read a = v := by
  rw [memWrite_mem, Memory.read_write hm, if_pos rfl]

theorem read_memWrite_of_ne {s : State} (hm : Memory.wf s.mem) (v : Word) {a b : Word} (ne : b ≠ a) :
    (memWrite a v s).mem.read b = s.mem.read b := by
  rw [memWrite_mem, Memory.read_write hm, if_neg ne]

/-- A store leaves what KBSR reads as (20_memory.md R63). -/
theorem memRead_kbsr_memWrite (a v : Word) :
    (memRead Config.kbsrAddr (memWrite a v s)).map (·.1) = (memRead Config.kbsrAddr s).map (·.1) := by
  rw [memRead_kbsr, memRead_kbsr]
  rfl

/-- A store leaves what KBDR reads as (20_memory.md R63). -/
theorem memRead_kbdr_memWrite (a v : Word) :
    (memRead Config.kbdrAddr (memWrite a v s)).map (·.1) = (memRead Config.kbdrAddr s).map (·.1) := by
  cases latch : s.kbFull
  case false => rw [memRead_kbdr_empty latch, memRead_kbdr_empty (s := memWrite a v s) latch]
  case true => rw [memRead_kbdr_full latch, memRead_kbdr_full (s := memWrite a v s) latch]; rfl

/-- While the latch is full the host cannot deliver (20_memory.md R67). -/
theorem hostTurn_latch_of_full {s : State} (full : s.kbFull = true) :
    (hostTurn s).kbFull = true ∧ (hostTurn s).kbChar = s.kbChar := by
  obtain e | ⟨_, -, e⟩ | ⟨_, _, -, empty, -⟩ := hostTurn_cases s
  · simp [e, full]
  · simp [e, full]
  · simp [full] at empty

/-- Settles O31: the addresses of the two device registers are the model's. -/
theorem memReadAnswersDeviceOrStorage : Obligations.MemReadAnswersDeviceOrStorage := by
  intro a s
  refine ⟨?_, ?_, fun notKbsr notKbdr => memRead_plain ⟨notKbsr, notKbdr⟩⟩
  · rintro rfl
    exact memRead_kbsr s
  · rintro rfl
    exact memRead_kbdr s

/-- Settles O32: KBSR's value is the latch's flag, which a store does not touch. -/
theorem kbsrReadShowsAPendingCharacter : Obligations.KbsrReadShowsAPendingCharacter :=
  fun s => ⟨memRead_kbsr s, fun v => memRead_kbsr (memWrite 0xFE00 v s)⟩

/-- Settles O33, by the two states of the latch. -/
theorem kbdrReadTakesTheCharacter : Obligations.KbdrReadTakesTheCharacter :=
  fun s => ⟨fun full => ⟨zext s.kbChar, s.takeChar, memRead_kbdr_full full, toNat_zext_byte s.kbChar, rfl⟩,
    memRead_kbdr_empty⟩

/-- Settles O34: memory by the read after a write, and the two device registers by what they read after a store. -/
theorem memWriteStoresOneWordOnly : Obligations.MemWriteStoresOneWordOnly := by
  intro a v s hm
  refine ⟨read_memWrite_same hm a v, fun _ => read_memWrite_of_ne hm v, rfl, ?_⟩
  refine List.forall_mem_cons.2 ⟨memRead_kbsr_memWrite s a v, ?_⟩
  exact List.forall_mem_singleton.2 (memRead_kbdr_memWrite s a v)

/-- Settles O35: a plain address reads as storage, where the store has put its word. -/
theorem storeIsSeenByTheNextFetch : Obligations.StoreIsSeenByTheNextFetch := by
  rintro a v s hm plain rfl
  refine ⟨(memWrite s.pc v s).setPc (s.pc + 1), ?_, ?_⟩
  · rw [fetch, memWrite_pc, memRead_plain plain, read_memWrite_same hm]
    rfl
  · simp [BitVec.toNat_add]

/-- Settles O36, by the cases of a host's turn. -/
theorem hostFillsOnlyAnEmptyLatch : Obligations.HostFillsOnlyAnEmptyLatch := by
  intro s
  refine ⟨hostTurn_latch_of_full, ?_, ?_, ?_, ?_⟩
  · intro empty c later offer
    simp [hostTurn, offer, empty]
  · intro later offer
    simp [hostTurn, offer]
  · intro noOffer
    simp [hostTurn, noOffer]
  · obtain e | ⟨_, -, e⟩ | ⟨_, _, -, -, e⟩ := hostTurn_cases s <;> rw [e]

end Sys2Proof.Machine
end

section
/-! SUPPORT, O38, O50 and O51. The decoder against the encoder, and over every word (30_encoding.md R100, R102, R112, R113). -/

namespace Sys2Proof.Laws

/-- A mask of one field leaves that field in its place. -/
theorem and_place_allOnes (w : Word) (lo n : Nat) : w &&& place lo (BitVec.allOnes n) = place lo (bits w lo n) := by
  refine BitVec.eq_of_getLsbD_eq fun i hi => ?_
  rw [BitVec.getLsbD_and, getLsbD_place, getLsbD_place, BitVec.getLsbD_allOnes, BitVec.getLsbD_extractLsb']
  by_cases above : lo ≤ i
  · simp [hi, above, Nat.add_sub_cancel' above, Bool.and_comm]
  · simp [above]

theorem bits_encode_opcode : ∀ i : Instr, bits (encode i) 12 4 = opcodeOf i
  | .addR .. => CanonicalOpcode.addR ..
  | .addI .. => CanonicalOpcode.addI ..
  | .andR .. => CanonicalOpcode.andR ..
  | .andI .. => CanonicalOpcode.andI ..
  | .not .. => CanonicalOpcode.not ..
  | .br .. => CanonicalOpcode.br ..
  | .jmp _ => CanonicalOpcode.jmp _
  | .ret => CanonicalOpcode.ret
  | .jsr _ => CanonicalOpcode.jsr _
  | .jsrr _ => CanonicalOpcode.jsrr _
  | .ld .. => CanonicalOpcode.ld ..
  | .ldi .. => CanonicalOpcode.ldi ..
  | .ldr .. => CanonicalOpcode.ldr ..
  | .lea .. => CanonicalOpcode.lea ..
  | .st .. => CanonicalOpcode.st ..
  | .sti .. => CanonicalOpcode.sti ..
  | .str .. => CanonicalOpcode.str ..
  | .trap _ => CanonicalOpcode.trap _
  | .getc => CanonicalOpcode.getc
  | .out => CanonicalOpcode.out
  | .puts => CanonicalOpcode.puts
  | .input => CanonicalOpcode.input
  | .putsp => CanonicalOpcode.putsp
  | .halt => CanonicalOpcode.halt
  | .rti => CanonicalOpcode.rti
  | .reserved => CanonicalOpcode.reserved

variable {i : Instr}

/-- The canonical word of an instruction of opcode `c` matches a row that fixes the opcode alone. -/
theorem encode_and_opcodeMask (c : BitVec 4) (op : opcodeOf i = c) : encode i &&& 0xF000 = place 12 c := by
  rw [← op, ← bits_encode_opcode]
  exact and_place_allOnes (encode i) 12 4

/-- It matches a row that also fixes bit `k`, which tells two forms of the opcode apart (30_encoding.md R102). -/
theorem encode_and_formMask (c : BitVec 4) (op : opcodeOf i = c) (k : Nat) (form : BitVec 1)
    (bit : bits (encode i) k 1 = form) : encode i &&& (0xF000 ||| place k 1#1) = place 12 c ||| place k form := by
  rw [BitVec.and_or_distrib_left, encode_and_opcodeMask c op, ← bit]
  exact congrArg _ (and_place_allOnes (encode i) k 1)

theorem bits_encode_jmp (baseR : RegIdx) : bits (encode (.jmp baseR)) 6 3 = baseR := by
  simp [encode, bits_or, bits_place_same, bits_place_disjoint]

theorem bits_encode_trap (v : Byte) : bits (encode (.trap v)) 0 8 = v := by
  simp [encode, encodeTrap, bits_or, bits_place_same, bits_place_disjoint]

/-- The canonical word matches the row of its instruction; the goals left are its fields, each read where it was placed. -/
theorem decode_encode (wf : i.wellFormed = true) : decode (encode i) = i := by
  refine match i, wf with
  | .addR .., _ => (decode_addR (encode_and_formMask 0x1 rfl 5 0 ?_)).trans ?_
  | .addI .., _ => (decode_addI (encode_and_formMask 0x1 rfl 5 1 ?_)).trans ?_
  | .andR .., _ => (decode_andR (encode_and_formMask 0x5 rfl 5 0 ?_)).trans ?_
  | .andI .., _ => (decode_andI (encode_and_formMask 0x5 rfl 5 1 ?_)).trans ?_
  | .not .., _ => (decode_not (encode_and_opcodeMask 0x9 rfl)).trans ?_
  | .br .., _ => (decode_br (encode_and_opcodeMask 0x0 rfl)).trans ?flags
  | .jmp baseR, wf => ?jmp
  | .ret, _ => decode_ret (by decide)
  | .jsr .., _ => (decode_jsr (encode_and_formMask 0x4 rfl 11 1 ?_)).trans ?_
  | .jsrr .., _ => (decode_jsrr (encode_and_formMask 0x4 rfl 11 0 ?_)).trans ?_
  | .ld .., _ => (decode_ld (encode_and_opcodeMask 0x2 rfl)).trans ?_
  | .ldi .., _ => (decode_ldi (encode_and_opcodeMask 0xA rfl)).trans ?_
  | .ldr .., _ => (decode_ldr (encode_and_opcodeMask 0x6 rfl)).trans ?_
  | .lea .., _ => (decode_lea (encode_and_opcodeMask 0xE rfl)).trans ?_
  | .st .., _ => (decode_st (encode_and_opcodeMask 0x3 rfl)).trans ?_
  | .sti .., _ => (decode_sti (encode_and_opcodeMask 0xB rfl)).trans ?_
  | .str .., _ => (decode_str (encode_and_opcodeMask 0x7 rfl)).trans ?_
  | .trap v, wf => ?trap
  | .getc, _ => decode_getc (by decide)
  | .out, _ => decode_out (by decide)
  | .puts, _ => decode_puts (by decide)
  | .input, _ => decode_input (by decide)
  | .putsp, _ => decode_putsp (by decide)
  | .halt, _ => decode_halt (by decide)
  | .rti, _ => decode_rti (encode_and_opcodeMask 0x8 rfl)
  | .reserved, _ => decode_reserved (encode_and_opcodeMask 0xD rfl)
  case jmp =>
    have notR7 : baseR ≠ 7 := by simpa [Instr.wellFormed] using wf
    rw [decode_jmp (encode_and_opcodeMask 0xC rfl) (by rwa [bits_encode_jmp]), bits_encode_jmp]
  case trap =>
    have unknown : isDefinedVector v = false := by simpa [Instr.wellFormed] using wf
    rw [decode_trap (encode_and_opcodeMask 0xF rfl) (by rwa [bits_encode_trap]), bits_encode_trap]
  case flags =>
    simp [encode, bits_or, bits_place_same, bits_place_disjoint, getLsbD_place, -BitVec.getLsbD_eq_getElem]
  all_goals simp [encode, bits_or, bits_place_same, bits_place_disjoint]

/-- Settles O50, by the row that each canonical word matches. -/
theorem decodeOfEncodeIsTheInstruction : Obligations.DecodeOfEncodeIsTheInstruction :=
  fun _ => decode_encode

theorem wellFormed_decodeJmp (baseR : RegIdx) : (decodeJmp baseR).wellFormed = true := by
  unfold decodeJmp
  split
  case isTrue => rfl
  case isFalse notR7 => simpa [Instr.wellFormed] using notR7

theorem wellFormed_decodeTrap (v : Byte) : (decodeTrap v).wellFormed = true := by
  fun_cases decodeTrap v
  case case7 notGetc notOut notPuts notIn notPutsp notHalt =>
    simp [Instr.wellFormed, isDefinedVector, notGetc, notOut, notPuts, notIn, notPutsp, notHalt]
  all_goals rfl

/-- Settles O51. Only the arms of opcodes 0xC and 0xF (the 13th and the 16th) give a JMP or a TRAP; those of opcodes 0x1, 0x4
and 0x5 choose between two forms. -/
theorem everyWordDecodesToAWellFormedInstruction : Obligations.EveryWordDecodesToAWellFormedInstruction := by
  intro w
  unfold decode
  split
  case h_13 => exact wellFormed_decodeJmp _
  case h_16 => exact wellFormed_decodeTrap _
  case h_2 | h_5 | h_6 => split <;> rfl
  all_goals rfl

/-- Settles O38: each word matches the row of its instruction. -/
theorem writtenOutWordsDecode : Obligations.WrittenOutWordsDecode :=
  ⟨decode_addR rfl, decode_addI rfl, decode_andR rfl, decode_not rfl, decode_br rfl, decode_ret rfl, decode_jsr rfl,
    decode_ldr rfl, decode_sti rfl, decode_halt rfl, decode_trap rfl rfl, decode_reserved rfl⟩

end Sys2Proof.Laws
end

section
/-! SUPPORT and O4 to O8. The operate instructions (40_operate.md): each is one `writeResult`, of its own value. -/

namespace Sys2Proof.Machine

theorem reg_writeResult_same (dr : RegIdx) (v : Word) (s : State) : (writeResult dr v s).reg dr = v := by
  rw [reg_writeResult, if_pos rfl]

/-- The frame of the flag-setting end of an instruction: nothing but DR and COND is written (10_state.md R34). -/
theorem frame_writeResult (dr : RegIdx) (v : Word) (s : State) : frame [dr] s (writeResult dr v s) :=
  ⟨(writesOnly_writeResult dr v s).regs, fun _ => rfl, rfl, rfl, rfl, rfl, rfl⟩

/-- What every operate instruction does beside its result: COND is set from DR, `pc`, the frame and the latch are kept. -/
theorem writeResult_effect (dr : RegIdx) (v : Word) (s : State) :
    (writeResult dr v s).cond = condByValue ((writeResult dr v s).reg dr) ∧ (writeResult dr v s).pc = s.pc ∧
      frame [dr] s (writeResult dr v s) ∧ sameInput s (writeResult dr v s) := by
  refine ⟨?_, rfl, frame_writeResult dr v s, rfl, rfl, rfl, rfl⟩
  rw [reg_writeResult_same, writeResult_cond, condOf_eq_condByValue]

/-- The bits of a word masked with a sign-extended field: above the field its top bit is the mask. -/
theorem getLsbD_and_sext {n : Nat} (a : Word) (v : BitVec n) (k : Nat) :
    (a &&& sext v).getLsbD k = (a.getLsbD k && (if k < n then v.getLsbD k else v.getLsbD (n - 1))) := by
  rw [BitVec.getLsbD_and]
  by_cases hk : k < 16
  case pos => rw [getLsbD_sext v hk]
  case neg => rw [BitVec.getLsbD_of_ge a k (Nat.le_of_not_lt hk), Bool.false_and, Bool.false_and]

/-- Settles O4: the sum of two words is taken modulo 2^16. -/
theorem addRegisterGivesTheWrappedSum : Obligations.AddRegisterGivesTheWrappedSum := by
  refine ⟨fun _ => Laws.decode_addR, fun dr sr1 sr2 s => ⟨_, rfl, ?_, writeResult_effect dr _ s⟩⟩
  rw [reg_writeResult_same]
  exact BitVec.toNat_add (s.reg sr1) (s.reg sr2)

/-- Settles O5: adding the extended immediate adds its signed value. -/
theorem addImmediateGivesTheWrappedSum : Obligations.AddImmediateGivesTheWrappedSum := by
  refine ⟨fun _ => Laws.decode_addI, fun dr sr1 imm5 s => ⟨_, rfl, ?_, writeResult_effect dr _ s⟩⟩
  rw [reg_writeResult_same]
  exact toNat_add_sext (s.reg sr1) imm5

/-- Settles O6, bit by bit. -/
theorem andRegisterKeepsTheCommonBits : Obligations.AndRegisterKeepsTheCommonBits := by
  refine ⟨fun _ => Laws.decode_andR, fun dr sr1 sr2 s => ⟨_, rfl, fun k => ?_, writeResult_effect dr _ s⟩⟩
  rw [reg_writeResult_same]
  exact BitVec.getLsbD_and

/-- Settles O7, by the bits of the extended immediate. -/
theorem andImmediateMasksWithTheSignedImmediate : Obligations.AndImmediateMasksWithTheSignedImmediate := by
  refine ⟨fun _ => Laws.decode_andI, fun dr sr1 imm5 s => ⟨_, rfl, fun k => ?_, writeResult_effect dr _ s⟩⟩
  rw [reg_writeResult_same]
  exact getLsbD_and_sext (s.reg sr1) imm5 k

/-- Settles O8: the complement of a word is 2^16 - 1 minus the word. -/
theorem notGivesTheComplement : Obligations.NotGivesTheComplement := by
  refine ⟨fun _ => Laws.decode_not, fun dr sr s => ⟨_, rfl, ?_, writeResult_effect dr _ s⟩⟩
  rw [reg_writeResult_same]
  exact BitVec.toNat_not

end Sys2Proof.Machine
end

section
/-! SUPPORT and O9 to O12. Control transfer (41_control.md): BR, JMP and RET are one write of `pc`; JSR and JSRR write R7 before
it. -/

namespace Sys2Proof.Machine

/-- What a jump does beside `pc`: COND, every register, memory, the output, the run and the latch are kept. -/
theorem setPc_effect (target : Word) (s : State) :
    (s.setPc target).cond = s.cond ∧ frame [] s (s.setPc target) ∧ sameInput s (s.setPc target) :=
  have kept := writesOnly_setPc target s
  ⟨rfl, ⟨kept.regs, fun _ => rfl, rfl, rfl, rfl, rfl, rfl⟩, rfl, rfl, rfl, rfl⟩

/-- What a jump to a subroutine does beside `pc`: R7 holds the incremented PC, and nothing else is written. -/
theorem link_effect (target : Word) (s : State) :
    let t := (s.setReg 7 s.pc).setPc target
    t.reg 7 = s.pc ∧ t.cond = s.cond ∧ frame [7] s t ∧ sameInput s t := by
  refine ⟨?_, rfl, ⟨(writesOnly_link target s).regs, fun _ => rfl, rfl, rfl, rfl, rfl, rfl⟩, rfl, rfl, rfl, rfl⟩
  rw [reg_setPc, reg_setReg, if_pos rfl]

/-- BR as one write of `pc`: an untaken branch writes the incremented PC that stands there (R150). -/
theorem exec_br (n z p : Bool) (off9 : BitVec 9) (s : State) :
    exec (.br n z p off9) s = .next (s.setPc (if branchTaken n z p s.cond then pcRelative off9 s else s.pc)) := by
  change execBr n z p off9 s = _
  rw [execBr]
  split <;> rfl

/-- Settles O9, by the two ways of the mask test. -/
theorem branchIsTakenOnAMatchingCondition : Obligations.BranchIsTakenOnAMatchingCondition := by
  refine ⟨fun _ => Laws.decode_br, fun n z p off9 s => ⟨_, exec_br n z p off9 s, ?_, ?_, setPc_effect _ s⟩⟩
  case refine_1 =>
    intro taken
    rw [setPc_pc, if_pos ((branchTaken_iff n z p s.cond).2 taken)]
    exact toNat_add_sext s.pc off9
  case refine_2 =>
    intro untaken
    rw [setPc_pc, if_neg (mt (branchTaken_iff n z p s.cond).1 untaken)]

/-- Settles O10: RET and JMP R7 are the same write of `pc`. -/
theorem jumpGoesToTheBaseRegister : Obligations.JumpGoesToTheBaseRegister :=
  ⟨fun _ => Laws.decode_jmp, fun _ => Laws.decode_ret, fun baseR s => ⟨_, rfl, rfl, setPc_effect (s.reg baseR) s⟩,
    fun s => ⟨_, rfl, rfl, rfl, setPc_effect (s.reg 7) s⟩⟩

/-- Settles O11: the target is taken from the incremented PC, which the link leaves in `pc`. -/
theorem jsrLinksAndJumpsRelative : Obligations.JsrLinksAndJumpsRelative :=
  ⟨fun _ => Laws.decode_jsr, fun off11 s => ⟨_, rfl, toNat_add_sext s.pc off11, link_effect (pcRelative off11 s) s⟩⟩

/-- Settles O12: a read of the base after R7 is written sees the link at BaseR = R7 alone (the spec's decision D17). -/
theorem jsrrLinksBeforeItReadsTheBase : Obligations.JsrrLinksBeforeItReadsTheBase :=
  ⟨fun _ => Laws.decode_jsrr, fun baseR s => ⟨_, rfl, reg_setReg s 7 baseR s.pc, link_effect _ s⟩⟩

end Sys2Proof.Machine
end

section
/-! SUPPORT. A suspended instruction in the step in which the host delivers a character (20_memory.md R67;
70_reset_and_hazards.md R275; notes/assumptions/3.md, 6.md). -/

namespace Sys2Proof.Machine

/-- `s` with character `c` delivered, the deliveries `later` still to come, and the instruction in progress going on. -/
def State.deliver (c : Byte) (later : List (Option Byte)) (s : State) : State :=
  { s with kbFull := true, kbChar := c, hostInput := later, wait := .none }

theorem holdsWith_hold (rest : Rest) (s : State) : holdsWith rest [] s (s.hold rest) :=
  ⟨⟨rfl, rfl, rfl, rfl⟩, ⟨fun _ _ => rfl, fun _ => rfl, rfl, rfl, rfl, rfl, rfl⟩, rfl, rfl⟩

theorem step_hold_offer {s : State} (run : s.run = .running) (empty : s.kbFull = false) (rest : Rest) (c : Byte)
    (later : List (Option Byte)) :
    step { s.hold rest with hostInput := some c :: later } = resume rest (s.deliver c later) := by
  obtain ⟨-, fills, -⟩ := hostFillsOnlyAnEmptyLatch { s.hold rest with hostInput := some c :: later }
  rw [step_running (s := { s.hold rest with hostInput := some c :: later }) run, fills empty c later rfl]
  rfl

/-- A suspended instruction goes on where its remaining actions take the delivered character and leave `post`. -/
theorem resumesWith_hold {rest : Rest} {s : State} {post : Byte → State → Prop}
    (resumed : ∀ c later, ∃ u, resume rest (s.deliver c later) = .next u ∧ post c u ∧
      inputAfter true (s.deliver c later) u) : resumesWith (s.hold rest) post := by
  intro c later run empty
  obtain ⟨u, e, after, taken, noWait, -, input⟩ := resumed c later
  exact ⟨u, (step_hold_offer run empty rest c later).trans e, after, noWait, taken, input⟩

/-- The outcome of an instruction that a read suspends, with what the delivery makes of it. -/
theorem holds_and_resumes {rest : Rest} {s t : State} {post : Byte → State → Prop} (held : t = s.hold rest)
    (resumed : resumesWith (s.hold rest) post) :
    ∃ u, (.next t : Host.Outcome State Fault Refusal) = .next u ∧ holdsWith rest [] s u ∧ resumesWith u post :=
  ⟨s.hold rest, by rw [held], holdsWith_hold rest s, resumed⟩

end Sys2Proof.Machine
end

section
/-! SUPPORT, O3 and O13 to O19. Loads and stores (42_load_store.md): a completed load is one `writeResult` and a completed
store one `memWrite`, in the state that the reads before it leave. -/

namespace Sys2Proof.Machine

/-! What the addresses of the keyboard registers and of a character read as -/

theorem wordAt_kbdr (s : State) : wordAt Config.kbdrAddr s = zext s.kbChar := by
  rw [wordAt, if_neg (by decide), if_pos rfl]

theorem wordAt_char (c : Byte) (s : State) : wordAt (zext c) s = s.mem.read (zext c) := by
  rw [wordAt, if_neg (zext_byte_ne c).1, if_neg (zext_byte_ne c).2]

/-- A character as an address is plain storage, whose read never waits. -/
theorem readable_char (c : Byte) (s : State) : readable (zext c) s :=
  fun device => absurd device (zext_byte_ne c).2

theorem ofNat_char (c : Byte) : BitVec.ofNat 16 c.toNat = zext c := BitVec.ofNat_toNat 16 c

/-- A read that completes, with the latch emptied exactly where the address is KBDR (20_memory.md R65, R66). -/
theorem readThen_taken {a : Word} {s : State} (h : readable a s) (rest : Rest) (k : Word → State → State) :
    readThen a rest k s = k (wordAt a s) (if a == Config.kbdrAddr then s.takeChar else s) := by
  simp only [readThen_readable h, beq_iff_eq]

/-! Loads -/

/-- The end of a load: DR holds the word and COND is set from it; the read before it at most took the character. -/
theorem writeResult_loaded (taken : Bool) (dr : RegIdx) (v : Word) (s : State) :
    let t := writeResult dr v (if taken then s.takeChar else s)
    t.reg dr = v ∧ t.cond = condByValue v ∧ t.pc = s.pc ∧ frame [dr] s t ∧ inputAfter taken s t := by
  refine ⟨reg_writeResult_same dr v _, condOf_eq_condByValue v, ?_⟩
  cases taken
  case false => exact ⟨rfl, frame_writeResult dr v s, rfl, rfl, rfl, rfl⟩
  case true => exact ⟨rfl, frame_writeResult dr v s.takeChar, rfl, rfl, rfl, rfl⟩

theorem loadFrom_readable {a : Word} {s : State} (h : readable a s) (dr : RegIdx) :
    let t := loadFrom a dr s
    t.reg dr = wordAt a s ∧ t.cond = condByValue (wordAt a s) ∧ t.pc = s.pc ∧ frame [dr] s t ∧
      inputAfter (a == Config.kbdrAddr) s t := by
  rw [loadFrom, readThen_taken h]
  exact writeResult_loaded _ dr _ s

/-- A load whose data read waits takes the delivered character, zero-extended. -/
theorem resumesWith_load (dr : RegIdx) (s : State) :
    resumesWith (s.hold (.load dr)) fun c u =>
      (u.reg dr).toNat = c.toNat ∧ u.cond = condByValue (u.reg dr) ∧ u.pc = s.pc ∧ frame [dr] s u := by
  refine resumesWith_hold fun c later => ⟨_, rfl, ?_⟩
  have full : readable Config.kbdrAddr (s.deliver c later) := fun _ => rfl
  obtain ⟨result, cond, pc, kept, taken⟩ := loadFrom_readable full dr
  rw [wordAt_kbdr] at result cond
  exact ⟨⟨by rw [result]; exact toNat_zext_byte c, by rw [result, cond], pc, kept⟩, taken⟩

theorem loadFrom_not_readable {a : Word} {s : State} (h : ¬ readable a s) (dr : RegIdx) :
    loadFrom a dr s = s.hold (.load dr) :=
  readThen_not_readable h

/-- A pointer that is read from KBDR is the character taken, and its data read is one of plain storage. -/
theorem loadThrough_kbdr {s : State} (full : s.kbFull = true) (dr : RegIdx) :
    let t := loadThrough Config.kbdrAddr dr s
    t.reg dr = s.mem.read (zext s.kbChar) ∧ t.cond = condByValue (s.mem.read (zext s.kbChar)) ∧ t.pc = s.pc ∧
      frame [dr] s t ∧ inputAfter true s t := by
  have plain := readable_char s.kbChar s.takeChar
  have e : loadThrough Config.kbdrAddr dr s = writeResult dr (s.mem.read (zext s.kbChar)) s.takeChar := by
    rw [loadThrough, readThen_readable fun _ => full, if_pos rfl, wordAt_kbdr, loadFrom, readThen_readable plain,
      if_neg (zext_byte_ne s.kbChar).2, wordAt_char, takeChar_mem]
  rw [e]
  exact writeResult_loaded true dr _ s

/-- A pointer that is read from any other address leaves the state as it was for the data read. -/
theorem loadThrough_of_ne {a : Word} (ne : a ≠ Config.kbdrAddr) (dr : RegIdx) (s : State) :
    loadThrough a dr s = loadFrom (wordAt a s) dr s := by
  rw [loadThrough, readThen_readable fun device => absurd device ne, if_neg ne]

theorem loadThrough_readable {a : Word} {s : State} (cell : readable a s) (data : readable (wordAt a s) s)
    (dr : RegIdx) :
    let t := loadThrough a dr s
    t.reg dr = wordAt (wordAt a s) s ∧ t.cond = condByValue (wordAt (wordAt a s) s) ∧ t.pc = s.pc ∧ frame [dr] s t ∧
      inputAfter (a == Config.kbdrAddr || wordAt a s == Config.kbdrAddr) s t := by
  by_cases device : a = Config.kbdrAddr
  case pos =>
    subst device
    rw [wordAt_kbdr, wordAt_char, beq_self_eq_true, Bool.true_or]
    exact loadThrough_kbdr (cell rfl) dr
  case neg =>
    rw [loadThrough_of_ne device, beq_false_of_ne device, Bool.false_or]
    exact loadFrom_readable data dr

theorem loadThrough_not_readable {a : Word} {s : State} (h : ¬ readable a s) (dr : RegIdx) :
    loadThrough a dr s = s.hold (.ldiPointer dr) :=
  readThen_not_readable h

/-- The data read of LDI waits only after a pointer read that took no character: the latch is empty. -/
theorem loadThrough_data_not_readable {a : Word} {s : State} (cell : readable a s) (data : ¬ readable (wordAt a s) s)
    (dr : RegIdx) : loadThrough a dr s = s.hold (.load dr) := by
  obtain ⟨-, empty, -⟩ := memRead_not_readable data
  have ne : a ≠ Config.kbdrAddr := fun device => by simp [cell device] at empty
  rw [loadThrough_of_ne ne, loadFrom_not_readable data]

/-- An LDI whose pointer read waits loads from the address that the delivered character is. -/
theorem resumesWith_ldiPointer (dr : RegIdx) (s : State) :
    resumesWith (s.hold (.ldiPointer dr)) fun c u =>
      u.reg dr = s.mem.read (BitVec.ofNat 16 c.toNat) ∧ u.cond = condByValue (u.reg dr) ∧ u.pc = s.pc ∧
        frame [dr] s u := by
  refine resumesWith_hold fun c later => ⟨_, rfl, ?_⟩
  obtain ⟨result, cond, pc, kept, taken⟩ := loadThrough_kbdr (s := s.deliver c later) rfl dr
  rw [ofNat_char]
  exact ⟨⟨result, by rw [result, cond], pc, kept⟩, taken⟩

/-- Settles O13, by the two ways of the data read. -/
theorem ldLoadsFromThePcOffset : Obligations.LdLoadsFromThePcOffset := by
  refine ⟨fun _ => Laws.decode_ld, fun dr off9 s => ⟨fun h => ⟨_, rfl, loadFrom_readable h dr⟩, fun h => ?_⟩⟩
  exact holds_and_resumes (loadFrom_not_readable h dr) (resumesWith_load dr s)

/-- Settles O14, by the two ways of the pointer read and of the data read. -/
theorem ldiLoadsThroughThePointer : Obligations.LdiLoadsThroughThePointer := by
  refine ⟨fun _ => Laws.decode_ldi, fun dr off9 s => ⟨?completes, ?pointerHolds, ?dataHolds⟩⟩
  case completes => exact fun cell data => ⟨_, rfl, loadThrough_readable cell data dr⟩
  case pointerHolds =>
    exact fun h => holds_and_resumes (loadThrough_not_readable h dr) (resumesWith_ldiPointer dr s)
  case dataHolds =>
    exact fun cell data => holds_and_resumes (loadThrough_data_not_readable cell data dr) (resumesWith_load dr s)

/-- Settles O15, by the two ways of the data read. -/
theorem ldrLoadsFromTheBaseOffset : Obligations.LdrLoadsFromTheBaseOffset := by
  refine ⟨fun _ => Laws.decode_ldr, fun dr baseR off6 s => ⟨fun h => ⟨_, rfl, loadFrom_readable h dr⟩, fun h => ?_⟩⟩
  exact holds_and_resumes (loadFrom_not_readable h dr) (resumesWith_load dr s)

/-! Stores -/

/-- The end of a store: the cell holds the word and nothing else is written (20_memory.md R63). -/
theorem memWrite_effect {s : State} (hm : Memory.wf s.mem) (a v : Word) :
    let t := memWrite a v s
    t.mem.read a = v ∧ storeFrame a s t ∧ sameInput s t :=
  ⟨read_memWrite_same hm a v,
    ⟨fun _ _ => rfl, rfl, rfl, fun _ => read_memWrite_of_ne hm v, rfl, rfl, rfl, rfl, rfl⟩, rfl, rfl, rfl, rfl⟩

theorem storeThrough_readable {a : Word} {s : State} (hm : Memory.wf s.mem) (h : readable a s) (sr : RegIdx) :
    let t := storeThrough a sr s
    t.mem.read (wordAt a s) = s.reg sr ∧ storeFrame (wordAt a s) s t ∧ inputAfter (a == Config.kbdrAddr) s t := by
  rw [storeThrough, readThen_taken h]
  cases a == Config.kbdrAddr
  case false =>
    obtain ⟨stored, kept, -⟩ := memWrite_effect hm (wordAt a s) (s.reg sr)
    exact ⟨stored, kept, rfl, rfl, rfl, rfl⟩
  case true =>
    obtain ⟨stored, kept, -⟩ := memWrite_effect (s := s.takeChar) hm (wordAt a s) (s.reg sr)
    exact ⟨stored, kept, rfl, rfl, rfl, rfl⟩

/-- An STI whose pointer read waits stores to the address that the delivered character is. -/
theorem resumesWith_stiPointer {s : State} (hm : Memory.wf s.mem) (sr : RegIdx) :
    resumesWith (s.hold (.stiPointer sr)) fun c u =>
      u.mem.read (BitVec.ofNat 16 c.toNat) = s.reg sr ∧ storeFrame (BitVec.ofNat 16 c.toNat) s u := by
  refine resumesWith_hold fun c later => ⟨_, rfl, ?_⟩
  have full : readable Config.kbdrAddr (s.deliver c later) := fun _ => rfl
  obtain ⟨stored, kept, taken⟩ := storeThrough_readable (s := s.deliver c later) hm full sr
  rw [wordAt_kbdr] at stored kept
  rw [ofNat_char]
  exact ⟨⟨stored, kept⟩, taken⟩

/-- Settles O18, by the two ways of the pointer read. -/
theorem stiStoresThroughThePointer : Obligations.StiStoresThroughThePointer := by
  refine ⟨fun _ => Laws.decode_sti, fun sr off9 s hm => ⟨fun h => ⟨_, rfl, storeThrough_readable hm h sr⟩, fun h => ?_⟩⟩
  exact holds_and_resumes (readThen_not_readable h) (resumesWith_stiPointer hm sr)

/-- Settles O17: ST is one store, at its PC-relative address. -/
theorem stStoresAtThePcOffset : Obligations.StStoresAtThePcOffset :=
  ⟨fun _ => Laws.decode_st, fun sr off9 s hm => ⟨_, rfl, memWrite_effect hm (pcRelative off9 s) (s.reg sr)⟩⟩

/-- Settles O19: STR is one store, at its base-plus-offset address. -/
theorem strStoresAtTheBaseOffset : Obligations.StrStoresAtTheBaseOffset :=
  ⟨fun _ => Laws.decode_str, fun sr baseR off6 s hm =>
    ⟨_, rfl, memWrite_effect hm (basePlusOffset baseR off6 s) (s.reg sr)⟩⟩

/-! Addresses -/

/-- Settles O3: each address is a sum with a sign-extended offset. -/
theorem effectiveAddressesAddTheSignedOffset : Obligations.EffectiveAddressesAddTheSignedOffset :=
  fun s => ⟨toNat_add_sext s.pc, toNat_add_sext s.pc, fun baseR => toNat_add_sext (s.reg baseR)⟩

/-- Settles O16: the address itself is the result, so no read can make LEA wait. -/
theorem leaGivesTheAddressAndSetsCond : Obligations.LeaGivesTheAddressAndSetsCond := by
  refine ⟨fun _ => Laws.decode_lea, fun dr off9 s => ⟨_, rfl, ?_, writeResult_effect dr _ s⟩⟩
  rw [reg_writeResult_same]
  exact toNat_add_sext s.pc off9

end Sys2Proof.Machine
end

section
/-! SUPPORT, O20 to O23, O25 and O28. TRAP, its dispatch and the routines that read no memory (43_trap.md): each is a few writes
after the trap entry, which writes R7 alone. -/

namespace Sys2Proof.Machine

/-! The vectors -/

/-- The six vectors of 30_encoding.md R109 are the numbers from 0x20 to 0x25. -/
theorem isDefinedVector_iff (v : Byte) : isDefinedVector v = true ↔ 0x20 ≤ v ∧ v ≤ 0x25 := by
  simp only [isDefinedVector, Bool.or_eq_true, beq_iff_eq, Config.vecGetc, Config.vecOut, Config.vecPuts, Config.vecIn,
    Config.vecPutsp, Config.vecHalt]
  bv_omega

theorem faultedWith_raise (cause : Cause) (s : State) : faultedWith cause s (raise cause s) := ⟨rfl, rfl, rfl, rfl⟩

/-- Settles O20: a vector outside 0x20 to 0x25 is none of the six, and the trap entry before the fault keeps `pc`. -/
theorem unknownTrapVectorFaults : Obligations.UnknownTrapVectorFaults := by
  intro v outside
  have unknown : isDefinedVector v = false := by
    rw [← Bool.not_eq_true, isDefinedVector_iff]
    bv_omega
  refine ⟨?decodes, fun s => ⟨_, rfl, ?faults⟩⟩
  case decodes =>
    rintro w opcode rfl
    exact Laws.decode_trap opcode unknown
  case faults =>
    rw [dispatchTrap_unknown unknown]
    exact faultedWith_raise (.unknownTrapVector v) (trapEntry s)

/-- Settles O21: both sides of each equation are the trap entry and the same routine. -/
theorem trapVectorSelectsTheRoutine : Obligations.TrapVectorSelectsTheRoutine :=
  fun _ => ⟨rfl, rfl, rfl, rfl, rfl, rfl⟩

/-! What a routine leaves after the trap entry -/

theorem reg7_trapEntry (s : State) : (trapEntry s).reg 7 = s.pc := by
  rw [reg_trapEntry, if_pos rfl]

theorem reg0_trapEntry (s : State) : (trapEntry s).reg 0 = s.reg 0 := by
  rw [reg_trapEntry, if_neg (by decide)]

/-- The trap entry writes R7 alone (60_exceptions.md R246). -/
theorem sameRegsBut_trapEntry (s : State) : sameRegsBut [7] s (trapEntry s) := by
  simp +contextual [sameRegsBut]

theorem consoleOut_nil (s : State) : consoleOut [] s = s := by
  rw [consoleOut, List.append_nil]

/-- Characters written after the trap entry, and nothing else. -/
theorem trapEntry_consoleOut_effect (cs : List Byte) (s : State) :
    let t := consoleOut cs (trapEntry s)
    t.out = s.out ++ cs ∧ t.reg 7 = s.pc ∧ t.pc = s.pc ∧ t.cond = s.cond ∧ sameRegsBut [7] s t ∧ sameMemory s t ∧
      sameRun s t ∧ sameInput s t :=
  ⟨rfl, reg7_trapEntry s, rfl, rfl, sameRegsBut_trapEntry s, fun _ => rfl, ⟨rfl, rfl, rfl, rfl⟩, rfl, rfl, rfl, rfl⟩

/-- Characters written after the trap entry, and then a hold (70_reset_and_hazards.md R275). -/
theorem trapEntry_consoleOut_hold_effect (cs : List Byte) (rest : Rest) (s : State) :
    let t := (consoleOut cs (trapEntry s)).hold rest
    t.out = s.out ++ cs ∧ t.reg 7 = s.pc ∧ t.pc = s.pc ∧ t.cond = s.cond ∧ sameRegsBut [7] s t ∧ sameMemory s t ∧
      sameRun s t ∧ waitsFor rest s t :=
  ⟨rfl, reg7_trapEntry s, rfl, rfl, sameRegsBut_trapEntry s, fun _ => rfl, ⟨rfl, rfl, rfl, rfl⟩, rfl, rfl, rfl, rfl⟩

/-- GETC and IN once they have their character `c`: it is taken from the latch, `echo` is written, and R0 holds it. -/
theorem trapEntry_takeChar_effect (echo : List Byte) (c : Byte) (s : State) :
    let t := (consoleOut echo (trapEntry s).takeChar).setReg 0 (zext c)
    t.out = s.out ++ echo ∧ (t.reg 0).toNat = c.toNat ∧ t.reg 7 = s.pc ∧ t.pc = s.pc ∧ t.cond = s.cond ∧
      sameRegsBut [0, 7] s t ∧ sameMemory s t ∧ sameRun s t ∧ inputAfter true s t := by
  refine ⟨rfl, ?_, ?_, rfl, rfl, ?_, fun _ => rfl, ⟨rfl, rfl, rfl, rfl⟩, rfl, rfl, rfl, rfl⟩
  · rw [reg_setReg, if_pos rfl, toNat_zext_byte]
  · rw [reg_setReg, if_neg (by decide)]
    exact reg7_trapEntry s
  · simp +contextual [sameRegsBut]

/-! OUT and HALT -/

theorem lowByte_eq_ofNat (w : Word) : lowByte w = BitVec.ofNat 8 (w.toNat % 256) := by
  apply BitVec.eq_of_toNat_eq
  simp [lowByte]

/-- Settles O23: the trap entry keeps R0. -/
theorem outWritesTheLowCharacter : Obligations.OutWritesTheLowCharacter := by
  refine ⟨fun _ => Laws.decode_out, fun s => ⟨_, rfl, ?_⟩⟩
  rw [← lowByte_eq_ofNat]
  rw [routineOut, reg0_trapEntry]
  exact trapEntry_consoleOut_effect [lowByte (s.reg 0)] s

/-- Settles O28: beside R7 only `run` and the status channel are written. -/
theorem haltStopsTheRunWithANotice : Obligations.HaltStopsTheRunWithANotice :=
  ⟨fun _ => Laws.decode_halt, fun s => ⟨_, rfl, rfl, rfl, rfl, reg7_trapEntry s, rfl, rfl, rfl, rfl,
    sameRegsBut_trapEntry s, fun _ => rfl, rfl, rfl, rfl, rfl⟩⟩

/-! GETC -/

theorem routineGetc_full {s : State} (full : s.kbFull = true) :
    let t := routineGetc (trapEntry s)
    (t.reg 0).toNat = s.kbChar.toNat ∧ t.reg 7 = s.pc ∧ t.pc = s.pc ∧ t.cond = s.cond ∧ frame [0, 7] s t ∧
      inputAfter true s t := by
  have stored := trapEntry_takeChar_effect [] s.kbChar s
  rw [consoleOut_nil] at stored
  obtain ⟨-, r0, r7, pc, cond, regs, mem, run, input⟩ := stored
  rw [routineGetc, getThen_full (s := trapEntry s) full]
  exact ⟨r0, r7, pc, cond, ⟨regs, mem, rfl, run⟩, input⟩

theorem resumesWith_getc (s : State) :
    resumesWith ((trapEntry s).hold .getc) fun c u =>
      (u.reg 0).toNat = c.toNat ∧ u.reg 7 = s.pc ∧ u.pc = s.pc ∧ u.cond = s.cond ∧ frame [0, 7] s u := by
  refine resumesWith_hold fun c later => ⟨_, rfl, ?_⟩
  obtain ⟨r0, r7, pc, cond, kept, input⟩ := routineGetc_full (s := s.deliver c later) rfl
  exact ⟨⟨r0, r7, pc, cond, kept⟩, input⟩

/-- Settles O22, by the two states of the latch. -/
theorem getcTakesOneCharacter : Obligations.GetcTakesOneCharacter := by
  refine ⟨fun _ => Laws.decode_getc, fun s => ⟨fun full => ⟨_, rfl, routineGetc_full full⟩, fun empty => ?holds⟩⟩
  case holds =>
    have held : routineGetc (trapEntry s) = (trapEntry s).hold .getc := getThen_empty empty
    have suspended := trapEntry_consoleOut_hold_effect [] .getc s
    rw [consoleOut_nil] at suspended
    obtain ⟨-, r7, pc, cond, regs, mem, run, waits⟩ := suspended
    exact ⟨_, congrArg Host.Outcome.next held, r7, ⟨waits, ⟨regs, mem, rfl, run⟩, pc, cond⟩, resumesWith_getc s⟩

/-! IN -/

theorem routineInAfterPrompt_full {s : State} (full : s.kbFull = true) :
    let t := routineInAfterPrompt (trapEntry s)
    t.out = s.out ++ [s.kbChar] ∧ (t.reg 0).toNat = s.kbChar.toNat ∧ t.reg 7 = s.pc ∧ t.pc = s.pc ∧ t.cond = s.cond ∧
      sameRegsBut [0, 7] s t ∧ sameMemory s t ∧ sameRun s t ∧ inputAfter true s t := by
  rw [routineInAfterPrompt, getThen_full (s := trapEntry s) full]
  exact trapEntry_takeChar_effect [s.kbChar] s.kbChar s

theorem resumesWith_input (s : State) :
    resumesWith ((trapEntry s).hold .input) fun c u =>
      u.out = s.out ++ [c] ∧ (u.reg 0).toNat = c.toNat ∧ u.reg 7 = s.pc ∧ u.pc = s.pc ∧ u.cond = s.cond ∧
        sameRegsBut [0, 7] s u ∧ sameMemory s u ∧ sameRun s u := by
  refine resumesWith_hold fun c later => ⟨_, rfl, ?_⟩
  obtain ⟨out, r0, r7, pc, cond, regs, mem, run, input⟩ := routineInAfterPrompt_full (s := s.deliver c later) rfl
  exact ⟨⟨out, r0, r7, pc, cond, regs, mem, run⟩, input⟩

/-- Settles O25, by the two states of the latch: the prompt may as well be written before the trap entry. -/
theorem inPromptsThenEchoesOneCharacter : Obligations.InPromptsThenEchoesOneCharacter := by
  refine ⟨fun _ => Laws.decode_input, fun s => ⟨fun full => ?completes, fun empty => ?holds⟩⟩
  case completes => exact ⟨_, rfl, routineInAfterPrompt_full (s := consoleOut Config.inPrompt s) full⟩
  case holds =>
    have held : routineIn (trapEntry s) = (consoleOut Config.inPrompt (trapEntry s)).hold .input := getThen_empty empty
    obtain ⟨out, r7, pc, cond, regs, mem, run, waits⟩ := trapEntry_consoleOut_hold_effect Config.inPrompt .input s
    exact ⟨_, congrArg Host.Outcome.next held, out, r7, pc, cond, regs, mem, run, waits,
      resumesWith_input (consoleOut Config.inPrompt s)⟩

end Sys2Proof.Machine
end

section
/-! SUPPORT, O24, O26 and O27. PUTS and PUTSP (43_trap.md R204, R206): one word of the loop, then a whole string of plain
storage by induction over its words. -/

namespace Sys2Proof.Machine

variable {kind : StringKind} {fuel : Nat} {a : Word} {s : State}

/-! One word -/

/-- A word of KBDR without a character makes the routine wait there. -/
theorem stringLoop_not_readable (h : ¬ readable a (stringHostTurn a s)) :
    stringLoop kind (fuel + 1) a s = (stringHostTurn a s).hold (.string kind a) := by
  obtain ⟨-, -, held⟩ := memRead_not_readable h
  simp only [stringLoop, held]

theorem stringLoop_kbdr_empty (empty : s.kbFull = false) :
    stringLoop kind (fuel + 1) Config.kbdrAddr s = s.hold (.string kind Config.kbdrAddr) := by
  have noTurn : stringHostTurn Config.kbdrAddr s = s := if_neg (by decide)
  have waits : ¬ readable Config.kbdrAddr (stringHostTurn Config.kbdrAddr s) := by simp [noTurn, empty]
  rw [stringLoop_not_readable waits, noTurn]

/-- A word that can be read ends the routine where it is zero, and else is written and followed by the next. -/
theorem stringLoop_readable (h : readable a (stringHostTurn a s)) :
    let s1 := stringHostTurn a s
    let s2 := if a = Config.kbdrAddr then s1.takeChar else s1
    stringLoop kind (fuel + 1) a s =
      if wordAt a s1 = 0 then s2 else stringLoop kind fuel (a + 1) (consoleOut (stringChars kind (wordAt a s1)) s2) := by
  simp only [stringLoop, memRead_readable h]

/-- The instruction that runs a string routine. -/
def StringKind.instr : StringKind → Instr
  | .puts => .puts
  | .putsp => .putsp

/-- Both instructions start their routine at R0, which the trap entry keeps. -/
theorem exec_stringInstr (kind : StringKind) (s : State) :
    exec kind.instr s = .next (stringLoop kind 65536 (s.reg 0) (trapEntry s)) := by
  rw [← reg0_trapEntry]
  cases kind <;> rfl

/-- A string routine left running goes on in the next step (notes/assumptions/5.md). -/
theorem step_stringRest (run : s.run = .running) (wait : s.wait = .none) (string : s.stringRest = some (kind, a)) :
    step s = .next (routineString kind a ((hostTurn s).setStringRest none)) := by
  simp only [step_running run, advance, proceedOrRun, hostTurn_wait, hostTurn_stringRest, wait, string]

/-- Settles O27, by whether the word can be read and whether it is zero. -/
theorem stringRoutinesReadWordByWord : Obligations.StringRoutinesReadWordByWord := by
  refine ⟨fun s => ⟨exec_stringInstr .puts s, exec_stringInstr .putsp s⟩, ?goesOn, ?word⟩
  case goesOn => exact fun kind a s run wait string => step_stringRest run wait string
  case word =>
    refine fun kind fuel a s => ⟨rfl, stringLoop_not_readable, ?zero, ?char⟩
    case zero => exact fun h zero => (stringLoop_readable h).trans (if_pos zero)
    case char => exact fun h char => (stringLoop_readable h).trans (if_neg char)

/-! A string of plain storage -/

/-- The words `ws` stand in plain storage from address `a` up (addresses wrapping), and none of them ends a string. -/
def StringAt (ws : List Word) (a : Word) (m : Memory) : Prop :=
  ∀ (i : Nat) (h : i < ws.length), plainAddr (a + BitVec.ofNat 16 i) ∧ m.read (a + BitVec.ofNat 16 i) = ws[i] ∧ ws[i] ≠ 0

theorem add_ofNat_succ (a : Word) (i : Nat) : a + BitVec.ofNat 16 (i + 1) = a + 1 + BitVec.ofNat 16 i := by
  rw [BitVec.add_assoc, Nat.add_comm i 1, BitVec.ofNat_add]
  rfl

theorem StringAt.head {w : Word} {ws : List Word} {m : Memory} (h : StringAt (w :: ws) a m) :
    plainAddr a ∧ m.read a = w ∧ w ≠ 0 := by
  simpa using h 0 (Nat.zero_lt_succ _)

theorem StringAt.tail {w : Word} {ws : List Word} {m : Memory} (h : StringAt (w :: ws) a m) : StringAt ws (a + 1) m := by
  intro i hi
  rw [← add_ofNat_succ]
  exact h (i + 1) (Nat.succ_lt_succ hi)

/-- The routine writes the characters of a string of plain storage and stands at the address after it. -/
theorem stringLoop_string {ws : List Word} (string : StringAt ws a s.mem) :
    stringLoop kind (ws.length + fuel) a s =
      stringLoop kind fuel (a + BitVec.ofNat 16 ws.length) (consoleOut (ws.flatMap (stringChars kind)) s) := by
  induction ws generalizing a s with
  | nil => simp [consoleOut_nil]
  | cons w ws ih =>
    obtain ⟨plain, read, nonzero⟩ := string.head
    have first : stringLoop kind (ws.length + fuel + 1) a s =
        stringLoop kind (ws.length + fuel) (a + 1) (consoleOut (stringChars kind w) s) := by
      rw [← read] at nonzero ⊢
      exact stringLoop_char plain nonzero
    have joined : consoleOut (ws.flatMap (stringChars kind)) (consoleOut (stringChars kind w) s) =
        consoleOut ((w :: ws).flatMap (stringChars kind)) s := by
      simp [consoleOut]
    rw [List.length_cons, Nat.add_right_comm, first, ih (s := consoleOut (stringChars kind w) s) string.tail, joined,
      add_ofNat_succ]

section
variable {ws : List Word} (short : ws.length < 65536) (string : StringAt ws (s.reg 0) s.mem)
include short string

/-- A string that fits in one pass leaves fuel for the word after it. -/
theorem exec_string (kind : StringKind) :
    exec kind.instr s = .next (stringLoop kind (65535 - ws.length + 1) (s.reg 0 + BitVec.ofNat 16 ws.length)
      (consoleOut (ws.flatMap (stringChars kind)) (trapEntry s))) := by
  have pass : 65536 = ws.length + (65535 - ws.length + 1) := by omega
  rw [exec_stringInstr, pass, stringLoop_string (s := trapEntry s) string]

/-- Either routine over a string of plain storage: its characters are written after the trap entry, and then the zero word
after it ends the routine or KBDR with the latch empty makes it wait. -/
theorem exec_string_effect (kind : StringKind) :
    let last := s.reg 0 + BitVec.ofNat 16 ws.length
    let written := s.out ++ ws.flatMap (stringChars kind)
    (plainAddr last → s.mem.read last = 0 → ∃ t, exec kind.instr s = .next t ∧ t.out = written ∧ t.reg 7 = s.pc ∧
      t.pc = s.pc ∧ t.cond = s.cond ∧ sameRegsBut [7] s t ∧ sameMemory s t ∧ sameRun s t ∧ sameInput s t) ∧
    (last = Config.kbdrAddr → s.kbFull = false → ∃ t, exec kind.instr s = .next t ∧ t.out = written ∧
      t.reg 7 = s.pc ∧ t.pc = s.pc ∧ t.cond = s.cond ∧ sameRegsBut [7] s t ∧ sameMemory s t ∧ sameRun s t ∧
      waitsFor (.string kind last) s t) := by
  intro last written
  rw [exec_string short string]
  constructor
  case left =>
    intro plain zero
    exact ⟨_, congrArg Host.Outcome.next (stringLoop_zero plain zero), trapEntry_consoleOut_effect _ s⟩
  case right =>
    intro kbdr empty
    have held : stringLoop kind (65535 - ws.length + 1) last (consoleOut (ws.flatMap (stringChars kind)) (trapEntry s)) =
        (consoleOut (ws.flatMap (stringChars kind)) (trapEntry s)).hold (.string kind last) := by
      rw [kbdr]
      exact stringLoop_kbdr_empty empty
    exact ⟨_, congrArg Host.Outcome.next held, trapEntry_consoleOut_hold_effect _ _ s⟩

end

/-! The characters of a word -/

theorem highByte_eq_ofNat (w : Word) : highByte w = BitVec.ofNat 8 (w.toNat / 256) := by
  apply BitVec.eq_of_toNat_eq
  simp [highByte, Nat.shiftRight_eq_div_pow]

theorem highByte_eq_zero_iff (w : Word) : highByte w = 0 ↔ w.toNat / 256 = 0 := by
  have byte : w.toNat / 256 < 256 := by omega
  rw [highByte_eq_ofNat, ← BitVec.toNat_inj, BitVec.toNat_ofNat, Nat.mod_eq_of_lt byte]
  rfl

theorem flatMap_stringChars_puts (ws : List Word) :
    ws.flatMap (stringChars .puts) = ws.map fun w => BitVec.ofNat 8 (w.toNat % 256) := by
  have chars : stringChars .puts = fun w => [BitVec.ofNat 8 (w.toNat % 256)] := by
    funext w
    rw [stringChars, lowByte_eq_ofNat]
  rw [chars, List.map_eq_flatMap]

theorem stringChars_putsp (w : Word) :
    stringChars .putsp w =
      if w.toNat / 256 = 0 then [BitVec.ofNat 8 (w.toNat % 256)]
      else [BitVec.ofNat 8 (w.toNat % 256), BitVec.ofNat 8 (w.toNat / 256)] := by
  simp only [stringChars, highByte_eq_zero_iff, lowByte_eq_ofNat]
  rw [highByte_eq_ofNat]

/-- Settles O24: one character a word. -/
theorem putsWritesUpToTheZeroWord : Obligations.PutsWritesUpToTheZeroWord := by
  refine ⟨fun _ => Laws.decode_puts, fun ws s short string => ?_⟩
  rw [← flatMap_stringChars_puts]
  exact exec_string_effect short string .puts

/-- Settles O26: one or two characters a word. -/
theorem putspWritesPackedCharacters : Obligations.PutspWritesPackedCharacters := by
  refine ⟨fun _ => Laws.decode_putsp, fun ws s short string => ?_⟩
  rw [← funext stringChars_putsp]
  exact exec_string_effect short string .putsp

end Sys2Proof.Machine
end

section
/-! SUPPORT, O29 and O30. The two illegal opcodes (44_illegal.md): each instruction is its fault and nothing else, so the rule of
`raise` gives what is left. -/

namespace Sys2Proof.Machine

theorem exec_rti (s : State) : exec .rti s = .next (raise (.illegalOpcode 0x8) s) := rfl

theorem exec_reserved (s : State) : exec .reserved s = .next (raise (.illegalOpcode 0xD) s) := rfl

/-- Settles O29: bits 11 to 0 are not examined, and RTI raises its fault in every state. -/
theorem rtiRaisesIllegalOpcode : Obligations.RtiRaisesIllegalOpcode :=
  ⟨fun _ => Laws.decode_rti, fun s => ⟨_, exec_rti s, faultedWith_raise (.illegalOpcode 0x8) s⟩⟩

/-- Settles O30: bits 11 to 0 are not examined, and the reserved opcode raises its fault in every state. -/
theorem reservedOpcodeRaisesIllegalOpcode : Obligations.ReservedOpcodeRaisesIllegalOpcode :=
  ⟨fun _ => Laws.decode_reserved, fun s => ⟨_, exec_reserved s, faultedWith_raise (.illegalOpcode 0xD) s⟩⟩

end Sys2Proof.Machine
end

section
/-! SUPPORT and O42. Every meaning answers a next state, and so does all that a step does (30_encoding.md R113, 60_exceptions.md
R244). -/

namespace Sys2Proof.Machine

variable (s : State)

/-- The answer is in the last line of each meaning: none of them tests first whether to answer. -/
theorem exec_next (i : Instr) : ∃ t, exec i s = .next t := by
  cases i <;> exact ⟨_, rfl⟩

theorem runInstr_next : ∃ t, runInstr s = .next t := by
  unfold runInstr
  split
  · exact exec_next _ _
  · exact ⟨_, rfl⟩

theorem resume_next (rest : Rest) : ∃ t, resume rest s = .next t := by
  cases rest
  case fetch => exact runInstr_next s
  all_goals exact ⟨_, rfl⟩

theorem proceedOrRun_next : ∃ t, proceedOrRun s = .next t := by
  unfold proceedOrRun
  split
  · exact runInstr_next s
  · exact ⟨_, rfl⟩

theorem advance_next : ∃ t, advance s = .next t := by
  unfold advance
  split
  · exact proceedOrRun_next s
  · split
    · exact resume_next _ _
    · exact ⟨_, rfl⟩

theorem step_next : ∃ t, step s = .next t := by
  by_cases run : s.run = .running
  · exact step_running run ▸ advance_next _
  · exact ⟨s, step_ended run⟩

/-- Settles O42, from the meanings up to the step. -/
theorem everyStepAnswersANextState : Obligations.EveryStepAnswersANextState :=
  ⟨fun i s => exec_next s i, step_next⟩

end Sys2Proof.Machine
end

section
/-! SUPPORT and O43. What an instruction can do to `run` (10_state.md R35, 60_exceptions.md R244). -/

namespace Sys2Proof.Machine

variable (s : State)

theorem loadFrom_run (a : Word) (dr : RegIdx) : (loadFrom a dr s).run = s.run := by
  obtain ⟨-, -, run, -⟩ := loadFrom_frame a dr s
  exact run

theorem loadThrough_run (a : Word) (dr : RegIdx) : (loadThrough a dr s).run = s.run := by
  obtain ⟨-, -, run, -⟩ := loadThrough_frame a dr s
  exact run

theorem storeThrough_run (a : Word) (sr : RegIdx) : (storeThrough a sr s).run = s.run := by
  obtain ⟨-, -, -, run, -⟩ := storeThrough_frame a sr s
  exact run

theorem routineGetc_run : (routineGetc s).run = s.run := by
  obtain ⟨-, -, -, run, -⟩ := routineGetc_frame s
  exact run

theorem routineIn_run : (routineIn s).run = s.run := by
  obtain ⟨-, -, -, run, -⟩ := routineIn_frame s
  exact run

theorem routineString_run (kind : StringKind) (a : Word) : (routineString kind a s).run = s.run := by
  obtain ⟨-, -, -, -, run, -⟩ := stringLoop_frame kind stringPass a s
  exact run

/-- The ways the run state stands before and after `i`. -/
inductive RunCase (i : Instr) (before after : RunState) : Prop where
  /-- HALT ends the run. -/
  | halts (halt : isHalt i = true) (noFault : raisesFault i = false) (run : after = .halted)
  /-- A fault ends the run. -/
  | faults (noHalt : isHalt i = false) (fault : raisesFault i = true) (run : after = .faulted)
  /-- Any other instruction leaves `run` as it is. -/
  | keeps (noHalt : isHalt i = false) (noFault : raisesFault i = false) (run : after = before)

/-- Of the six vectors HALT's alone ends the run, and every other vector is a fault. -/
theorem dispatchTrap_runCase (v : Byte) : RunCase (.trap v) s.run (dispatchTrap v s).run := by
  cases vector : isDefinedVector v
  case false =>
    have noHalt : v ≠ Config.vecHalt := by
      rintro rfl
      cases vector
    exact .faults (beq_false_of_ne noHalt) (by rw [raisesFault, vector, Bool.not_false])
      (by rw [dispatchTrap_unknown vector, raise_run])
  case true =>
    obtain ⟨rfl, e⟩ | ⟨rfl, e⟩ | ⟨rfl, e⟩ | ⟨rfl, e⟩ | ⟨rfl, e⟩ | ⟨rfl, e⟩ := dispatchTrap_defined vector s <;> rw [e]
    · exact .keeps rfl rfl (routineGetc_run s)
    · exact .keeps rfl rfl rfl
    · exact .keeps rfl rfl (routineString_run s _ _)
    · exact .keeps rfl rfl (routineIn_run s)
    · exact .keeps rfl rfl (routineString_run s _ _)
    · exact .halts rfl rfl rfl

theorem exec_runCase {i : Instr} {s t : State} (e : exec i s = .next t) : RunCase i s.run t.run := by
  cases i <;> cases e
  case halt => exact .halts rfl rfl rfl
  case rti | reserved => exact .faults rfl rfl rfl
  case trap v => exact dispatchTrap_runCase (trapEntry s) v
  all_goals refine .keeps rfl rfl ?_
  case br n z p off9 => split <;> rfl
  case ld | ldr => exact loadFrom_run s _ _
  case ldi => exact loadThrough_run s _ _
  case sti => exact storeThrough_run s _ _
  case getc => exact routineGetc_run (trapEntry s)
  case puts | putsp => exact routineString_run (trapEntry s) _ _
  case input => exact routineIn_run (trapEntry s)
  all_goals rfl

/-- Settles O43: a RUNNING state that `run` keeps is neither HALTED nor FAULTED. -/
theorem onlyHaltAndFaultsEndARun : Obligations.OnlyHaltAndFaultsEndARun := by
  intro i s t running e
  cases exec_runCase e with
  | halts halt noFault run => simp [halt, noFault, run]
  | faults noHalt fault run => simp [noHalt, fault, run]
  | keeps noHalt noFault run => simp [noHalt, noFault, run, running]

end Sys2Proof.Machine
end

section
/-! SUPPORT and O49. The host's deliveries to come are read by nothing but a host's turn (20_memory.md R67), so every meaning
without one commutes with a change of them; of the meanings only the string routines have one (notes/assumptions/4.md). -/

namespace Sys2Proof.Machine

/-- `s` with the deliveries `later` still to come. -/
def State.withInput (later : List (Option Byte)) (s : State) : State :=
  { s with hostInput := later }

variable (later : List (Option Byte)) (s : State)

theorem readThen_withInput {k : Word → State → State} (a : Word) (rest : Rest)
    (next : ∀ v u, k v (u.withInput later) = (k v u).withInput later) :
    readThen a rest k (s.withInput later) = (readThen a rest k s).withInput later := by
  by_cases h : readable a s
  case neg => rw [readThen_not_readable h, readThen_not_readable (s := s.withInput later) h]; rfl
  case pos =>
    rw [readThen_readable h, readThen_readable (s := s.withInput later) h, ← next]
    split <;> rfl

theorem getThen_withInput {k : Byte → State → State} (rest : Rest)
    (next : ∀ c u, k c (u.withInput later) = (k c u).withInput later) :
    getThen rest k (s.withInput later) = (getThen rest k s).withInput later := by
  cases latch : s.kbFull
  case false => rw [getThen_empty latch, getThen_empty (s := s.withInput later) latch]; rfl
  case true => rw [getThen_full latch, getThen_full (s := s.withInput later) latch, ← next]; rfl

theorem loadFrom_withInput (a : Word) (dr : RegIdx) :
    loadFrom a dr (s.withInput later) = (loadFrom a dr s).withInput later :=
  readThen_withInput later s a _ fun _ _ => rfl

theorem loadThrough_withInput (a : Word) (dr : RegIdx) :
    loadThrough a dr (s.withInput later) = (loadThrough a dr s).withInput later :=
  readThen_withInput later s a _ fun p u => loadFrom_withInput later u p dr

theorem storeThrough_withInput (a : Word) (sr : RegIdx) :
    storeThrough a sr (s.withInput later) = (storeThrough a sr s).withInput later :=
  readThen_withInput later s a _ fun _ _ => rfl

theorem routineGetc_withInput : routineGetc (s.withInput later) = (routineGetc s).withInput later :=
  getThen_withInput later s _ fun _ _ => rfl

theorem routineIn_withInput : routineIn (s.withInput later) = (routineIn s).withInput later :=
  getThen_withInput later (consoleOut Config.inPrompt s) _ fun _ _ => rfl

/-- Of the six routines only PUTS and PUTSP have a host's turn, and the fault of every other vector has none. -/
theorem dispatchTrap_withInput {v : Byte} (noString : runsString (.trap v) = false) :
    dispatchTrap v (s.withInput later) = (dispatchTrap v s).withInput later := by
  cases vector : isDefinedVector v
  case false => rw [dispatchTrap_unknown vector, dispatchTrap_unknown vector]; rfl
  case true =>
    obtain ⟨rfl, e⟩ | ⟨rfl, e⟩ | ⟨rfl, e⟩ | ⟨rfl, e⟩ | ⟨rfl, e⟩ | ⟨rfl, e⟩ := dispatchTrap_defined vector s <;> rw [e]
    · exact routineGetc_withInput later s
    · rfl
    · cases noString
    · exact routineIn_withInput later s
    · cases noString
    · rfl

/-- An instruction that runs no string routine does the same whatever the host will deliver later, a fault included. -/
theorem exec_withInput {i : Instr} {t : State} (noString : runsString i = false) (e : exec i s = .next t) :
    exec i (s.withInput later) = .next (t.withInput later) := by
  cases i <;> cases e
  case puts | putsp => cases noString
  all_goals refine congrArg Host.Outcome.next ?_
  case br n z p off9 =>
    rw [apply_ite (State.withInput later)]
    rfl
  case ld | ldr => exact loadFrom_withInput later s _ _
  case ldi => exact loadThrough_withInput later s _ _
  case sti => exact storeThrough_withInput later s _ _
  case trap v => exact dispatchTrap_withInput later (trapEntry s) noString
  case getc => exact routineGetc_withInput later (trapEntry s)
  case input => exact routineIn_withInput later (trapEntry s)
  all_goals rfl

/-- Settles O49: the two next states differ in the list of deliveries alone. -/
theorem laterInputDoesNotChangeAnInstruction : Obligations.LaterInputDoesNotChangeAnInstruction := by
  intro i s later noString
  obtain ⟨t, e⟩ := exec_next s i
  exact ⟨t, t.withInput later, e, exec_withInput later s noString e, fun _ => rfl, rfl, rfl, rfl, rfl⟩

end Sys2Proof.Machine
end

section
/-! SUPPORT, O37, O39 and O40. A step while no instruction is in progress, while one waits, and in which the host's character
comes (70_reset_and_hazards.md R274, R275). -/

namespace Sys2Proof.Machine

variable {s : State}

/-! The instruction at `pc` -/

/-- An instruction whose fetch completes is executed with `pc` past it. -/
theorem runInstr_of_memRead {w : Word} {s' : State} (read : memRead s.pc s = some (w, s')) :
    runInstr s = exec (decode w) (s'.setPc (s'.pc + 1)) := by
  simp only [runInstr, fetch, read, Option.map_some]

theorem runInstr_of_memRead_none (held : memRead s.pc s = none) : runInstr s = .next (s.hold .fetch) := by
  simp only [runInstr, fetch, held, Option.map_none]

theorem runInstr_kbdr_full (device : s.pc = Config.kbdrAddr) (full : s.kbFull = true) :
    runInstr s = exec (decode (zext s.kbChar)) (s.takeChar.setPc (s.pc + 1)) :=
  runInstr_of_memRead (by rw [device, memRead_kbdr_full full])

theorem step_runInstr (run : s.run = .running) (wait : s.wait = .none) (noString : s.stringRest = none) :
    step s = runInstr (hostTurn s) := by
  simp only [step_running run, advance, proceedOrRun, hostTurn_wait, hostTurn_stringRest, wait, noString]

/-- Settles O37, by what the address in `pc` is and, at KBDR, by the latch. -/
theorem stepRunsTheDecodedInstruction : Obligations.StepRunsTheDecodedInstruction := by
  intro s run wait noString
  rw [step_runInstr run wait noString]
  refine ⟨fun plain => ?plain, fun device => ?kbsr, fun device full => ?kbdrFull, fun device empty => ?kbdrEmpty⟩
  case plain => exact runInstr_of_memRead (memRead_plain plain)
  case kbsr => exact runInstr_of_memRead (by rw [device]; exact memRead_kbsr _)
  case kbdrFull => exact runInstr_kbdr_full device full
  case kbdrEmpty => exact runInstr_of_memRead_none (by rw [device]; exact memRead_kbdr_empty empty)

/-! An instruction that waits -/

theorem step_waits {rest : Rest} (run : s.run = .running) (wait : s.wait = .input rest)
    (empty : (hostTurn s).kbFull = false) : step s = .next (hostTurn s) := by
  simp only [step_running run, advance, hostTurn_wait, wait, empty]
  rfl

/-- Settles O40: a host's turn without an offer leaves the latch empty. -/
theorem waitingEngineOnlyWaits : Obligations.WaitingEngineOnlyWaits := by
  intro s rest run wait empty
  obtain ⟨-, -, usesUp, keeps, -⟩ := hostFillsOnlyAnEmptyLatch s
  refine ⟨fun noOffer => ?noOffer, fun later emptyOffer => ?emptyOffer⟩
  case noOffer =>
    have turn := keeps noOffer
    rw [step_waits run wait (by rw [turn, empty]), turn]
  case emptyOffer =>
    have turn := usesUp later emptyOffer
    rw [step_waits run wait (by rw [turn]; exact empty), turn]

/-! The character comes -/

/-- The step of the delivery goes on with the remaining actions. -/
theorem step_offer {rest : Rest} {c : Byte} {later : List (Option Byte)} (run : s.run = .running)
    (empty : s.kbFull = false) (wait : s.wait = .input rest) (offer : s.hostInput = some c :: later) :
    step s = resume rest (s.deliver c later) := by
  obtain ⟨-, fills, -⟩ := hostFillsOnlyAnEmptyLatch s
  simp only [step_running run, advance, wait, fills empty c later offer]
  rfl

/-- A word of KBDR with a character ends a string routine where the character is zero, and else is written and followed by the
next word. -/
theorem stringLoop_kbdr_full {kind : StringKind} {fuel : Nat} (full : s.kbFull = true) :
    stringLoop kind (fuel + 1) Config.kbdrAddr s =
      if zext s.kbChar = 0 then s.takeChar
      else stringLoop kind fuel (Config.kbdrAddr + 1) (consoleOut (stringChars kind (zext s.kbChar)) s.takeChar) := by
  have noTurn : stringHostTurn Config.kbdrAddr s = s := if_neg (by decide)
  rw [stringLoop_readable (by rw [noTurn]; exact fun _ => full), noTurn, wordAt_kbdr, if_pos rfl]

theorem zext_byte_eq_zero_iff (c : Byte) : zext c = 0 ↔ c = 0 := by
  rw [← BitVec.toNat_inj, ← BitVec.toNat_inj, toNat_zext_byte]
  rfl

/-- Settles O39: the delivery fills the latch, and the fetch or the string takes the character from it at once. -/
theorem heldFetchesAndStringsGoOn : Obligations.HeldFetchesAndStringsGoOn := by
  intro s c later run empty offer
  rw [ofNat_char]
  refine ⟨fun wait device => ?fetch, fun kind wait => ?string⟩
  case fetch =>
    have pc : (s.deliver c later).pc = 0xFE02 := device
    have goesOn := runInstr_kbdr_full pc rfl
    rw [pc] at goesOn
    exact (step_offer run empty wait offer).trans goesOn
  case string =>
    have goesOn := stringLoop_kbdr_full (kind := kind) (fuel := 65535) (s := s.deliver c later) rfl
    simp only [zext_byte_eq_zero_iff] at goesOn
    exact (step_offer run empty wait offer).trans (congrArg Host.Outcome.next goesOn)

end Sys2Proof.Machine
end

section
/-! SUPPORT, O55 and O58. The reset state, and the boot sequence by what the loading of its images answers (20_memory.md R82;
70_reset_and_hazards.md R270, R271). -/

namespace Sys2Proof.Machine

/-- Settles O55: every register holds `GPR_RESET`, and memory lists no cell. -/
theorem resetPutsEveryPieceInItsResetValue : Obligations.ResetPutsEveryPieceInItsResetValue := by
  refine ⟨fun r => ?regs, rfl, rfl, rfl, rfl, rfl, rfl, Memory.read_nil⟩
  case regs => exact Vector.getElem_replicate _

/-- The state a boot starts in: reset, with the images' words in memory and the host's deliveries to come. -/
def State.booted (m : Memory) (input : List (Option Byte)) : State :=
  { State.reset with mem := m, hostInput := input }

variable {image : ImageStream} {images more : List ImageStream} {input : List (Option Byte)} {k : Nat} {m m' : Memory} {t : State}

theorem loadImages_cons_of_some (loads : loadImage image m = some m') :
    loadImages k (image :: images) m = loadImages (k + 1) images m' := by
  simp only [loadImages, loads]

theorem loadImages_cons_of_none (fails : loadImage image m = none) :
    loadImages k (image :: images) m = .error k := by
  simp only [loadImages, fails]

/-- The images after those that load are loaded over what those left, numbered from where those ended. -/
theorem loadImages_append (loaded : loadImages k images m = .ok m') :
    loadImages k (images ++ more) m = loadImages (k + images.length) more m' := by
  induction images generalizing k m with
  | nil => cases loaded; rfl
  | cons image images ih =>
    rw [List.cons_append, List.length_cons, Nat.add_comm images.length, ← Nat.add_assoc]
    cases first : loadImage image m with
    | none =>
      rw [loadImages_cons_of_none first] at loaded
      cases loaded
    | some m1 =>
      rw [loadImages_cons_of_some first] at loaded ⊢
      exact ih loaded

theorem boot_of_ok (loaded : loadImages 0 images [] = .ok m) : boot images input = .next (State.booted m input) := by
  rw [boot, State.reset, loaded]
  rfl

theorem boot_of_error (failed : loadImages 0 images [] = .error k) :
    boot images input = .fault (.imageLoadError k) := by
  rw [boot, State.reset, failed]

/-- A boot answers a state only where every image loads. -/
theorem boot_next (e : boot images input = .next t) :
    loadImages 0 images [] = .ok t.mem ∧ t = State.booted t.mem input := by
  cases h : loadImages 0 images [] with
  | ok m =>
    rw [boot_of_ok h] at e
    cases e
    exact ⟨rfl, rfl⟩
  | error k =>
    rw [boot_of_error h] at e
    cases e

/-- Settles O58: what the images after the booted ones do is the loading that goes on from the booted memory. -/
theorem bootLoadsInOrderOrReportsTheFailure : Obligations.BootLoadsInOrderOrReportsTheFailure := by
  refine ⟨fun input => boot_of_ok rfl, ?oneMore, ?failure, ?started⟩
  case oneMore =>
    intro images image input t m' e loads
    obtain ⟨loaded, state⟩ := boot_next e
    have all : loadImages 0 (images ++ [image]) [] = .ok m' := by
      rw [loadImages_append loaded, loadImages_cons_of_some loads]
      rfl
    rw [boot_of_ok all, state]
    rfl
  case failure =>
    intro images image more input t e fails
    obtain ⟨loaded, -⟩ := boot_next e
    refine boot_of_error ?_
    rw [loadImages_append loaded, loadImages_cons_of_none fails, Nat.zero_add]
  case started =>
    intro images input t e
    obtain ⟨-, state⟩ := boot_next e
    exact ⟨by rw [state]; rfl, by rw [state]; rfl, state⟩

end Sys2Proof.Machine
end
